-- ==== Sys2Proof/Word.lean ====
section
/-! DEFINITION. The value types of 00_scope.md R7: i32 words, bytes, and the i32 range. -/

namespace Sys2Proof

/-- An i32: 32 bits, read as two's complement through `BitVec.toInt` (R7, R25). -/
abbrev Word := BitVec 32

/-- A u8 (R7). -/
abbrev Byte := BitVec 8

/-- `INT_MIN` (R7). -/
abbrev intMin : Int := -2147483648

/-- `INT_MAX` (R7). -/
abbrev intMax : Int := 2147483647

/-- The index of one of the 13 registers (R25). -/
abbrev RegIdx := Fin 13

end Sys2Proof
end

