-- ==== Sys2Proof/Syntax.lean ====
section
/-! DEFINITION. The 27 instructions of the opcode table (30_encoding.md R65 to R67). -/

namespace Sys2Proof

/-- One constructor per row of the opcode table. A register operand is kept as the whole operand word, because a word
outside [0, 13) still decodes and faults only when the step runs (R66, R70). An unused operand word is never read for
meaning and has no place here (R66). The names `logicalAnd`, `logicalOr` and `endRun` stand for And, Or and End. -/
inductive Instr where
  | add (ra rb : Word)                          -- form RR, R79
  | addImmediate (ra imm : Word)                -- form RI, R80
  | logicalAnd (ra rb : Word)                   -- form RR, R85
  | compare (ra rb : Word)                      -- form RR, R84
  | compareZeroJump (ra target : Word)          -- form RT, R101
  | convertASCIIToInteger                       -- form N, R109
  | convertIntegerToASCII                       -- form N, R110
  | divide (ra rb : Word)                       -- form RR, R83
  | greaterThanZeroJump (ra target : Word)      -- form RT, R103
  | inputASCII                                  -- form N, R111
  | inputInteger                                -- form N, R112
  | jump (target : Word)                        -- form T, R99
  | jumpRelative (ra : Word)                    -- form R, R100
  | lessThanZeroJump (ra target : Word)         -- form RT, R104
  | loadAddress (ra imm : Word)                 -- form RI, R88
  | loadByte (ra addr : Word)                   -- form RM, R91
  | loadWord (ra addr : Word)                   -- form RM, R92
  | move (ra rb : Word)                         -- form RR, R87
  | multiply (ra rb : Word)                     -- form RR, R82
  | nonZeroJump (ra target : Word)              -- form RT, R102
  | logicalOr (ra rb : Word)                    -- form RR, R86
  | outputASCII                                 -- form N, R114
  | outputInteger                               -- form N, R115
  | storeByte (ra addr : Word)                  -- form RM, R93
  | storeWord (ra addr : Word)                  -- form RM, R94
  | subtract (ra rb : Word)                     -- form RR, R81
  | endRun                                      -- form N, R105
deriving DecidableEq, Repr

end Sys2Proof
end

