-- ==== Sys2Proof/Config.lean ====
section
/-! DEFINITION. The implementation parameters of 00_scope.md R6, their reference configuration, and the free values. -/

namespace Sys2Proof

/-- The 27 mnemonics, in the order of the source's §4.4 table (30_encoding.md R67). `logicalAnd`, `logicalOr` and
`endRun` stand for And, Or and End. -/
inductive Mnemonic where
  | add | addImmediate | logicalAnd | compare | compareZeroJump | convertASCIIToInteger | convertIntegerToASCII | divide
  | greaterThanZeroJump | inputASCII | inputInteger | jump | jumpRelative | lessThanZeroJump | loadAddress | loadByte
  | loadWord | move | multiply | nonZeroJump | logicalOr | outputASCII | outputInteger | storeByte | storeWord | subtract
  | endRun
deriving DecidableEq, Repr

/-- All mnemonics, each once. -/
def Mnemonic.all : List Mnemonic :=
  [.add, .addImmediate, .logicalAnd, .compare, .compareZeroJump, .convertASCIIToInteger, .convertIntegerToASCII, .divide,
   .greaterThanZeroJump, .inputASCII, .inputInteger, .jump, .jumpRelative, .lessThanZeroJump] ++
  [.loadAddress, .loadByte, .loadWord, .move, .multiply, .nonZeroJump, .logicalOr, .outputASCII, .outputInteger, .storeByte,
   .storeWord, .subtract, .endRun]

/-- The row of a mnemonic in the table, counted from 0. -/
def Mnemonic.row : Mnemonic → Fin 27
  | .add => 0
  | .addImmediate => 1
  | .logicalAnd => 2
  | .compare => 3
  | .compareZeroJump => 4
  | .convertASCIIToInteger => 5
  | .convertIntegerToASCII => 6
  | .divide => 7
  | .greaterThanZeroJump => 8
  | .inputASCII => 9
  | .inputInteger => 10
  | .jump => 11
  | .jumpRelative => 12
  | .lessThanZeroJump => 13
  | .loadAddress => 14
  | .loadByte => 15
  | .loadWord => 16
  | .move => 17
  | .multiply => 18
  | .nonZeroJump => 19
  | .logicalOr => 20
  | .outputASCII => 21
  | .outputInteger => 22
  | .storeByte => 23
  | .storeWord => 24
  | .subtract => 25
  | .endRun => 26

/-- `OPCODE_MAP`: the opcode value of each mnemonic, by its row (R67, D1). -/
abbrev OpcodeMap := Vector Word 27

/-- The opcode value of a mnemonic. -/
def OpcodeMap.opcode (map : OpcodeMap) (m : Mnemonic) : Word := map.get m.row

/-- R67 asks for an injective map: no value stands twice. -/
def OpcodeMap.injective (map : OpcodeMap) : Bool := decide map.toList.Nodup

/-- The reference map: the rows numbered from 1, with 0 unassigned (R67, D1). -/
def OpcodeMap.reference : OpcodeMap :=
  #v[1, 2, 3, 4, 5, 6, 7, 8, 9, 10, 11, 12, 13, 14, 15, 16, 17, 18, 19, 20, 21, 22, 23, 24, 25, 26, 27]

/-- `OVERFLOW_POLICY` (R6, R10, D4). -/
inductive OverflowPolicy where
  | fault | wrap
deriving DecidableEq, Repr

/-- `REG_RESET` (R6, 10_state.md R30, D3). -/
inductive RegReset where
  | unwritten | zero
deriving DecidableEq, Repr

/-- The five parameters that the spec leaves open (R6). They are plain data that the state carries and no step changes, so
that every statement about a state holds for every choice of them (log 1). -/
structure Config where
  /-- `MEM_SIZE`. -/
  memSize : Nat
  /-- `IDX_PC`. -/
  idxPc : RegIdx
  /-- `OPCODE_MAP`. -/
  opcodes : OpcodeMap
  /-- `OVERFLOW_POLICY`. -/
  overflow : OverflowPolicy
  /-- `REG_RESET`. -/
  regReset : RegReset
deriving DecidableEq, Repr

/-- `IDX_IO`, derived from the source's scenario 1 (R6, 10_state.md R26, D2). -/
def Config.idxIo : RegIdx := 0

/-- `RECORD_BYTES` (R6). -/
abbrev Config.recordBytes : Nat := 12

/-- `JUMP_BIAS` (R6). -/
abbrev Config.jumpBias : Int := 12

/-- `ASCII_ZERO` (R6). -/
abbrev Config.asciiZero : Int := 48

/-- What R6 and R67 ask of the parameters: 12 ≤ `MEM_SIZE` ≤ 2^31 - 1, `IDX_PC` is not `IDX_IO`, `OPCODE_MAP` injective. -/
def Config.wf (c : Config) : Bool :=
  decide (12 ≤ c.memSize) && decide (c.memSize ≤ 2147483647) && decide (c.idxPc ≠ Config.idxIo) && c.opcodes.injective

/-- The reference configuration (R6). -/
def Config.reference : Config where
  memSize := 10000000
  idxPc := 12
  opcodes := OpcodeMap.reference
  overflow := .fault
  regReset := .unwritten

/-- Free values: the registers after the n-th load error, which R144 calls unspecified (U15; log 9). -/
opaque Config.unspecifiedRegisters : Nat → Vector Word 13

/-- Free values: the memory after the n-th load error, which R144 calls unspecified (U15; log 9), as address and byte pairs
in any order; an address the list does not name holds 0, and a pair outside the memory array names no byte. -/
opaque Config.unspecifiedMemory : Nat → List (Nat × Byte)

end Sys2Proof
end

