-- ==== Sys2Proof/WellFormed.lean ====
section
/-! DEFINITION. Which operand words an instruction uses as register indices, and the check on them (30_encoding.md R65, R66,
R71). An ill-formed instruction is no illegal encoding: it decodes, and its step raises `InvalidRegister` (R70). -/

namespace Sys2Proof

/-- The `A` word, for the forms that use it as a register index: RR, RI, RM, RT and R (R65). -/
def Instr.regA : Instr → Option Word
  | .add ra _ => some ra
  | .addImmediate ra _ => some ra
  | .logicalAnd ra _ => some ra
  | .compare ra _ => some ra
  | .compareZeroJump ra _ => some ra
  | .convertASCIIToInteger => none
  | .convertIntegerToASCII => none
  | .divide ra _ => some ra
  | .greaterThanZeroJump ra _ => some ra
  | .inputASCII => none
  | .inputInteger => none
  | .jump _ => none
  | .jumpRelative ra => some ra
  | .lessThanZeroJump ra _ => some ra
  | .loadAddress ra _ => some ra
  | .loadByte ra _ => some ra
  | .loadWord ra _ => some ra
  | .move ra _ => some ra
  | .multiply ra _ => some ra
  | .nonZeroJump ra _ => some ra
  | .logicalOr ra _ => some ra
  | .outputASCII => none
  | .outputInteger => none
  | .storeByte ra _ => some ra
  | .storeWord ra _ => some ra
  | .subtract ra _ => some ra
  | .endRun => none

/-- The `B` word, for the one form that uses it as a register index: RR (R65). -/
def Instr.regB : Instr → Option Word
  | .add _ rb => some rb
  | .addImmediate _ _ => none
  | .logicalAnd _ rb => some rb
  | .compare _ rb => some rb
  | .compareZeroJump _ _ => none
  | .convertASCIIToInteger => none
  | .convertIntegerToASCII => none
  | .divide _ rb => some rb
  | .greaterThanZeroJump _ _ => none
  | .inputASCII => none
  | .inputInteger => none
  | .jump _ => none
  | .jumpRelative _ => none
  | .lessThanZeroJump _ _ => none
  | .loadAddress _ _ => none
  | .loadByte _ _ => none
  | .loadWord _ _ => none
  | .move _ rb => some rb
  | .multiply _ rb => some rb
  | .nonZeroJump _ _ => none
  | .logicalOr _ rb => some rb
  | .outputASCII => none
  | .outputInteger => none
  | .storeByte _ _ => none
  | .storeWord _ _ => none
  | .subtract _ rb => some rb
  | .endRun => none

/-- A register operand word is valid when it lies in [0, 13), read as an i32 (00_scope.md R8; 10_state.md R29). -/
def validRegWord (w : Word) : Bool := decide (0 ≤ w.toInt ∧ w.toInt < 13)

/-- Every word the form uses as a register index is valid (R71, checks 3 and 4). -/
def Instr.wellFormed (i : Instr) : Bool := i.regA.all validRegWord && i.regB.all validRegWord

end Sys2Proof
end

