-- ==== Sys2Proof/Decode.lean ====
section
/-! DEFINITION. The decoder and the encoder of the 12-byte instruction record (30_encoding.md R63 to R71), and the
little-endian helpers both rest on (20_memory.md R48). -/

namespace Sys2Proof

/-- The unsigned little-endian value of a byte sequence, the first byte least significant (00_scope.md R9). -/
def leValue : List Byte → Nat
  | [] => 0
  | b :: bs => b.toNat + 256 * leValue bs

/-- The `n` low bytes of a number, least significant first (20_memory.md R48). -/
def leBytes : Nat → Nat → List Byte
  | 0, _ => []
  | n + 1, v => BitVec.ofNat 8 v :: leBytes n (v / 256)

/-- The three i32 words of a fetched record (R63). -/
structure Record where
  op : Word
  a : Word
  b : Word
deriving DecidableEq, Repr

/-- The three fields of the 96-bit record value (R63). -/
def Record.ofBits (r : BitVec 96) : Record where
  op := r.extractLsb' 0 32
  a := r.extractLsb' 32 32
  b := r.extractLsb' 64 32

/-- The record that 12 bytes in address order hold (R63). -/
def Record.ofBytes (bytes : List Byte) : Record := Record.ofBits (BitVec.ofNat 96 (leValue bytes))

/-- The 12 bytes of a record, in address order (R63). -/
def Record.toBytes (r : Record) : List Byte :=
  leBytes 4 r.op.toNat ++ leBytes 4 r.a.toNat ++ leBytes 4 r.b.toNat

/-- Why bytes do not decode. -/
inductive DecodeError where
  /-- The bytes are not exactly one record of 12 (R64). The core's own fetch always reads 12. -/
  | wrongLength
  /-- The opcode is the value of no mnemonic (R69). -/
  | unknownOpcode (op : Word)
deriving DecidableEq, Repr

/-- The mnemonic whose opcode value the whole `OP` word equals, if there is one (R67). -/
def OpcodeMap.mnemonicOf (map : OpcodeMap) (op : Word) : Option Mnemonic :=
  Mnemonic.all.find? (fun m => map.opcode m == op)

/-- The instruction of a mnemonic, its operands taken from the words its form says (R65, R66, D6). -/
def instrOf (m : Mnemonic) (a b : Word) : Instr :=
  match m with
  | .add => .add a b
  | .addImmediate => .addImmediate a b
  | .logicalAnd => .logicalAnd a b
  | .compare => .compare a b
  | .compareZeroJump => .compareZeroJump a b
  | .convertASCIIToInteger => .convertASCIIToInteger
  | .convertIntegerToASCII => .convertIntegerToASCII
  | .divide => .divide a b
  | .greaterThanZeroJump => .greaterThanZeroJump a b
  | .inputASCII => .inputASCII
  | .inputInteger => .inputInteger
  | .jump => .jump a
  | .jumpRelative => .jumpRelative a
  | .lessThanZeroJump => .lessThanZeroJump a b
  | .loadAddress => .loadAddress a b
  | .loadByte => .loadByte a b
  | .loadWord => .loadWord a b
  | .move => .move a b
  | .multiply => .multiply a b
  | .nonZeroJump => .nonZeroJump a b
  | .logicalOr => .logicalOr a b
  | .outputASCII => .outputASCII
  | .outputInteger => .outputInteger
  | .storeByte => .storeByte a b
  | .storeWord => .storeWord a b
  | .subtract => .subtract a b
  | .endRun => .endRun

/-- Decode one record. The only illegal records are those with an unknown opcode (R69, R70). -/
def decodeRecord (map : OpcodeMap) (r : Record) : Option Instr :=
  (map.mnemonicOf r.op).map (fun m => instrOf m r.a r.b)

/-- Decode 12 bytes in address order; total on any bytes (R63, R64, R69). -/
def decode (map : OpcodeMap) (bytes : List Byte) : Except DecodeError Instr :=
  if bytes.length = Config.recordBytes then
    match decodeRecord map (Record.ofBytes bytes) with
    | some i => .ok i
    | none => .error (.unknownOpcode (Record.ofBytes bytes).op)
  else .error .wrongLength

/-- The mnemonic of an instruction. -/
def Instr.mnemonic : Instr → Mnemonic
  | .add _ _ => .add
  | .addImmediate _ _ => .addImmediate
  | .logicalAnd _ _ => .logicalAnd
  | .compare _ _ => .compare
  | .compareZeroJump _ _ => .compareZeroJump
  | .convertASCIIToInteger => .convertASCIIToInteger
  | .convertIntegerToASCII => .convertIntegerToASCII
  | .divide _ _ => .divide
  | .greaterThanZeroJump _ _ => .greaterThanZeroJump
  | .inputASCII => .inputASCII
  | .inputInteger => .inputInteger
  | .jump _ => .jump
  | .jumpRelative _ => .jumpRelative
  | .lessThanZeroJump _ _ => .lessThanZeroJump
  | .loadAddress _ _ => .loadAddress
  | .loadByte _ _ => .loadByte
  | .loadWord _ _ => .loadWord
  | .move _ _ => .move
  | .multiply _ _ => .multiply
  | .nonZeroJump _ _ => .nonZeroJump
  | .logicalOr _ _ => .logicalOr
  | .outputASCII => .outputASCII
  | .outputInteger => .outputInteger
  | .storeByte _ _ => .storeByte
  | .storeWord _ _ => .storeWord
  | .subtract _ _ => .subtract
  | .endRun => .endRun

/-- The `A` word of an instruction's record; an unused word is encoded as 0 (R65, R66). -/
def Instr.wordA : Instr → Word
  | .add ra _ => ra
  | .addImmediate ra _ => ra
  | .logicalAnd ra _ => ra
  | .compare ra _ => ra
  | .compareZeroJump ra _ => ra
  | .convertASCIIToInteger => 0
  | .convertIntegerToASCII => 0
  | .divide ra _ => ra
  | .greaterThanZeroJump ra _ => ra
  | .inputASCII => 0
  | .inputInteger => 0
  | .jump target => target
  | .jumpRelative ra => ra
  | .lessThanZeroJump ra _ => ra
  | .loadAddress ra _ => ra
  | .loadByte ra _ => ra
  | .loadWord ra _ => ra
  | .move ra _ => ra
  | .multiply ra _ => ra
  | .nonZeroJump ra _ => ra
  | .logicalOr ra _ => ra
  | .outputASCII => 0
  | .outputInteger => 0
  | .storeByte ra _ => ra
  | .storeWord ra _ => ra
  | .subtract ra _ => ra
  | .endRun => 0

/-- The `B` word of an instruction's record; an unused word is encoded as 0 (R65, R66). -/
def Instr.wordB : Instr → Word
  | .add _ rb => rb
  | .addImmediate _ imm => imm
  | .logicalAnd _ rb => rb
  | .compare _ rb => rb
  | .compareZeroJump _ target => target
  | .convertASCIIToInteger => 0
  | .convertIntegerToASCII => 0
  | .divide _ rb => rb
  | .greaterThanZeroJump _ target => target
  | .inputASCII => 0
  | .inputInteger => 0
  | .jump _ => 0
  | .jumpRelative _ => 0
  | .lessThanZeroJump _ target => target
  | .loadAddress _ imm => imm
  | .loadByte _ addr => addr
  | .loadWord _ addr => addr
  | .move _ rb => rb
  | .multiply _ rb => rb
  | .nonZeroJump _ target => target
  | .logicalOr _ rb => rb
  | .outputASCII => 0
  | .outputInteger => 0
  | .storeByte _ addr => addr
  | .storeWord _ addr => addr
  | .subtract _ rb => rb
  | .endRun => 0

/-- The record of an instruction under an opcode map (R63, R67). -/
def encodeRecord (map : OpcodeMap) (i : Instr) : Record where
  op := map.opcode i.mnemonic
  a := i.wordA
  b := i.wordB

/-- The 12 bytes of an instruction (R63, R64). -/
def encode (map : OpcodeMap) (i : Instr) : List Byte := (encodeRecord map i).toBytes

/-- The 12 bytes, in address order, of the instruction whose low `nbits` bits are those of `w`, every higher bit 0. -/
def tableWordBytes (nbits w : Nat) : List Byte := leBytes Config.recordBytes (w % 2 ^ nbits)

/-- The instruction that the decoder reads, under the reference map, from the bits `w` as opcode_table.json numbers them. -/
def decodeTableWord (nbits w : Nat) : Option Instr :=
  match decode OpcodeMap.reference (tableWordBytes nbits w) with
  | .ok i => some i
  | .error _ => none

end Sys2Proof
end

