-- ==== Sys2Proof/Machine/State.lean ====
section
/-! DEFINITION. The state of the core (10_state.md R40), the reasons a step can stop, and the state after reset. -/

namespace Sys2Proof.Machine

/-- The run status (10_state.md R34). -/
inductive Status where
  | empty | loaded | running | halted | faulted | loadError
deriving DecidableEq, Repr

/-- The kind of an input request (10_state.md R34; 00_scope.md R15). -/
inductive InputKind where
  | char | int
deriving DecidableEq, Repr

/-- The fault causes of 60_exceptions.md R121. -/
inductive Cause where
  | none | loadError | fetchOutOfBounds | dataOutOfBounds | invalidRegister | divideByZero | unknownOpcode
  | arithmeticOverflow | uninitialisedRegister
deriving DecidableEq, Repr

/-- The fault record (10_state.md R35; 60_exceptions.md R124). The u8 of the cause is `Cause.code`. -/
structure FaultRecord where
  cause : Cause
  pc : Word
  opcode : Word
  detail : Word
deriving DecidableEq, Repr

/-- The all-zero fault record (R35). -/
def FaultRecord.zero : FaultRecord where
  cause := .none
  pc := 0
  opcode := 0
  detail := 0

/-- One event of the output port (00_scope.md R16). -/
inductive Event where
  | byte (b : Byte)
  | int (v : Word)
  | diag (kind : InputKind)
deriving DecidableEq, Repr

/-- The host's answer to an input request (00_scope.md R15; 43_io.md R113). -/
inductive Answer where
  | ok (v : Word)
  | fail
deriving DecidableEq, Repr

/-- The host's transactions other than `STEP` (00_scope.md R13). -/
inductive Command where
  | load (image : List Byte)
  | run (start : Word)
deriving DecidableEq, Repr

/-- Memory as (address, byte) pairs: addresses strictly rising, and no byte equal to what an unlisted address reads as
(`Memory.unlisted`). -/
abbrev Memory := List Host.Cell

/-- What an address that no pair names reads as: 0, the zero fill of `LOAD` (20_memory.md R47; 70_reset_and_hazards.md
R143; log 11). -/
abbrev Memory.unlisted : Byte := 0

/-- The canonical form of a memory. -/
def Memory.wf (m : Memory) : Bool :=
  decide (m.Pairwise (fun c d => c.1 < d.1)) && decide (∀ c ∈ m, c.2 ≠ Memory.unlisted)

/-- The whole state: the fields of R40, then the parameters (R6, log 1) and the model's own three fields. -/
structure State where
  /-- The register file: 13 i32 values (R25). -/
  x : Vector Word 13
  /-- The hidden written bits (R30). -/
  written : Vector Bool 13
  /-- The memory array (20_memory.md R45). -/
  mem : Memory
  /-- The run status (R34). -/
  status : Status
  /-- The input request that waits for the host's answer (R34). -/
  pending : Option InputKind
  /-- The fault record (R35). -/
  fault : FaultRecord
  /-- The output port's history, oldest event first (00_scope.md R16). -/
  out : List Event
  /-- The implementation parameters (00_scope.md R6); no step changes them. -/
  cfg : Config
  /-- The model's own: the host's `LOAD` and `RUN` transactions still to come, next first (log 5). -/
  commands : List Command
  /-- The model's own: the host's answers to input requests still to come, next first (log 5). -/
  answers : List Answer
  /-- The model's own: how many times free values have been drawn (log 9). -/
  freeDraws : Nat
deriving DecidableEq, Repr

/-- Why no step is enabled: the model's only stops. The spec's own faults are no stops of the model: they are taken, as
next states (60_exceptions.md R124; log 8). -/
inductive Fault where
  /-- Raised by `step` in a status other than RUNNING when no host command is to come: no step is enabled (42_control_transfer.md
  R97, R106; 70_reset_and_hazards.md R141). Safe: the spec gives the core no transition here. -/
  | noStepEnabled (status : Status)
  /-- Raised by `step` while an input request is pending and no answer is to come: the core waits without end (43_io.md
  R113; U12). Safe: the spec gives the core no transition here. -/
  | inputUnanswered (kind : InputKind)
deriving DecidableEq, Repr

/-- Why an instruction is refused. -/
inductive Refusal where
  /-- Raised by `exec` for an instruction that has no meaning yet; no arm raises it now. Safe: nothing is claimed of it. -/
  | notModelled (mnemonic : String)
deriving DecidableEq, Repr

/-- What the core's step and the shared operations answer. -/
abbrev Outcome := Host.Outcome State Fault Refusal

/-- The `written` bits that `LOAD` leaves (R30, R41). -/
def writtenAfterLoad (r : RegReset) : Vector Bool 13 :=
  match r with
  | .unwritten => Vector.replicate 13 false
  | .zero => Vector.replicate 13 true

/-- The register values that `LOAD` leaves: 0, by R30 and R41 when `REG_RESET` is `zero`, and the model's choice for the values
R41 calls unspecified when it is `unwritten` (log 3). -/
def registersAfterLoad : Vector Word 13 := Vector.replicate 13 0

/-- The core right after reset: after `LOAD` of the empty image in the reference configuration (70_reset_and_hazards.md R142,
R143; 10_state.md R41; log 2). -/
def State.reset : State where
  x := registersAfterLoad
  written := writtenAfterLoad Config.reference.regReset
  mem := []
  status := .loaded
  pending := none
  fault := FaultRecord.zero
  out := []
  cfg := Config.reference
  commands := []
  answers := []
  freeDraws := 0

end Sys2Proof.Machine
end

