-- ==== Sys2Proof/Machine/Flags.lean ====
section
/-! DEFINITION. The core has no flags (10_state.md R36). This file holds what stands in their place: the fault causes an
operation can raise, the overflow rule, and the sign, truth and range tests of the instructions. -/

namespace Sys2Proof.Machine

/-- A fault that a step raises, with the information R121 records of it. -/
inductive Raise where
  | fetchOutOfBounds (addr : Word)
  | dataOutOfBounds (addr : Word)
  | invalidRegister (w : Word)
  | divideByZero (divisor : RegIdx)
  | unknownOpcode (op : Word)
  | arithmeticOverflow
  | uninitialisedRegister (r : RegIdx)
deriving DecidableEq, Repr

/-- The cause a raise records (60_exceptions.md R121). -/
def Raise.cause : Raise → Cause
  | .fetchOutOfBounds _ => .fetchOutOfBounds
  | .dataOutOfBounds _ => .dataOutOfBounds
  | .invalidRegister _ => .invalidRegister
  | .divideByZero _ => .divideByZero
  | .unknownOpcode _ => .unknownOpcode
  | .arithmeticOverflow => .arithmeticOverflow
  | .uninitialisedRegister _ => .uninitialisedRegister

/-- The detail a raise records (R121, last column). -/
def Raise.detail : Raise → Word
  | .fetchOutOfBounds addr => addr
  | .dataOutOfBounds addr => addr
  | .invalidRegister w => w
  | .divideByZero divisor => BitVec.ofNat 32 divisor.val
  | .unknownOpcode op => op
  | .arithmeticOverflow => 0
  | .uninitialisedRegister r => BitVec.ofNat 32 r.val

/-- The numeric code of a cause (R121). -/
def Cause.code : Cause → BitVec 8
  | .none => 0
  | .loadError => 1
  | .fetchOutOfBounds => 2
  | .dataOutOfBounds => 3
  | .invalidRegister => 4
  | .divideByZero => 5
  | .unknownOpcode => 6
  | .arithmeticOverflow => 7
  | .uninitialisedRegister => 8

/-- The numeric code of a status (10_state.md R34). -/
def Status.code : Status → Nat
  | .empty => 0
  | .loaded => 1
  | .running => 2
  | .halted => 3
  | .faulted => 4
  | .loadError => 5

/-- `wrap32`: the i32 congruent to an integer modulo 2^32 (00_scope.md R10). -/
def wrap32 (v : Int) : Word := BitVec.ofInt 32 v

/-- Whether an exact result lies in the i32 range (R10). -/
def inI32 (v : Int) : Bool := decide (intMin ≤ v ∧ v ≤ intMax)

/-- `ovf`: the exact result if it is an i32, else what `OVERFLOW_POLICY` says (R10, 40_alu.md R76). -/
def ovf (policy : OverflowPolicy) (v : Int) : Except Raise Word :=
  if inI32 v then .ok (wrap32 v)
  else
    match policy with
    | .fault => .error .arithmeticOverflow
    | .wrap => .ok (wrap32 v)

/-- `sign`: -1, 0 or 1 (R10). -/
def signOf (v : Word) : Word :=
  if v.toInt < 0 then -1 else if v.toInt = 0 then 0 else 1

/-- The 1 or 0 that a logical operation writes (40_alu.md R85, R86). -/
def ofTruth (b : Bool) : Word := if b then 1 else 0

/-- `trunc_div` with the two faulting cases of Divide, the zero divisor first (R10; 40_alu.md R77, R83). -/
def quotient (divisor : RegIdx) (a b : Word) : Except Raise Word :=
  if b.toInt = 0 then .error (.divideByZero divisor)
  else if a.toInt = intMin ∧ b.toInt = -1 then .error .arithmeticOverflow
  else .ok (wrap32 (a.toInt.tdiv b.toInt))

/-- The digit test and sentinel of ConvertASCIIToInteger (43_io.md R109). -/
def digitOrMinusOne (t : Word) : Word := if 0 ≤ t.toInt ∧ t.toInt ≤ 9 then t else -1

/-- The character test and sentinel of ConvertIntegerToASCII (43_io.md R110). -/
def digitCharOrZeroChar (t : Word) : Word :=
  if 48 ≤ t.toInt ∧ t.toInt ≤ 57 then t else wrap32 Config.asciiZero

end Sys2Proof.Machine
end

