-- ==== Sys2Proof/Machine/Operands.lean ====
section
/-! DEFINITION. Register operands: the index check, the checked read, the write (00_scope.md R8; 10_state.md R29, R30). An
immediate, an address and a jump target are the whole operand word and need no operation (30_encoding.md R66). -/

namespace Sys2Proof.Machine

/-- `reg(w)`: the index if 0 ≤ w ≤ 12, else `InvalidRegister(w)` (00_scope.md R8; 10_state.md R29). The word is read unsigned
here, where a negative i32 is above 12 (`reg_ok_iff` says that this is the signed check). -/
def reg (w : Word) : Except Raise RegIdx :=
  if h : w.toNat < 13 then .ok ⟨w.toNat, h⟩ else .error (.invalidRegister w)

/-- The operand word that names a register. -/
def regWord (r : RegIdx) : Word := BitVec.ofNat 32 r.val

/-- Whether a read of the register is allowed: its bit is set, or `REG_RESET` is `zero`, under which every bit is treated as
set (10_state.md R30; log 17). -/
def State.readable (s : State) (r : RegIdx) : Bool := decide (s.cfg.regReset = .zero) || s.written.get r

/-- The checked read `x[r]` (00_scope.md R8; 10_state.md R30). -/
def State.readReg (s : State) (r : RegIdx) : Except Raise Word :=
  if s.readable r then .ok (s.x.get r) else .error (.uninitialisedRegister r)

/-- The write `x[r] <- v`, which sets the register's written bit (00_scope.md R8; 10_state.md R30). No register is hard-wired
(R28). -/
def State.writeReg (s : State) (r : RegIdx) (v : Word) : State :=
  { s with x := s.x.set r.val v r.isLt, written := s.written.set r.val true r.isLt }

/-- The program counter, as the execution loop and the PC logic read it (10_state.md R31; log 12). -/
def State.pc (s : State) : Word := s.x.get s.cfg.idxPc

end Sys2Proof.Machine
end

