-- ==== Sys2Proof/Machine/Ops.lean ====
section
/-! DEFINITION. The operations the meanings share: memory, the PC logic, the ways an instruction ends, and taking a fault.
The core has no return from a fault and no handler (60_exceptions.md R126), so no such operation stands beside it. -/

namespace Sys2Proof.Machine

/-! ### Memory -/

/-- The byte at an address (20_memory.md R45). -/
def Memory.read : Memory → Nat → Byte
  | [], _ => Memory.unlisted
  | (k, b) :: m, a => if k = a then b else Memory.read m a

/-- Put a pair before the first pair of a higher address. -/
def Memory.insert : Memory → Nat → Byte → Memory
  | [], a, v => [(a, v)]
  | (k, b) :: m, a, v => if a < k then (a, v) :: (k, b) :: m else (k, b) :: Memory.insert m a v

/-- The pairs of every other address. -/
def Memory.erase (m : Memory) (a : Nat) : Memory := m.filter (fun c => decide (c.1 ≠ a))

/-- Write one byte, keeping the canonical form. -/
def Memory.write (m : Memory) (a : Nat) (v : Byte) : Memory :=
  if v = Memory.unlisted then Memory.erase m a else Memory.insert (Memory.erase m a) a v

/-- The `n` bytes from an address upward, in address order. -/
def Memory.readBytes (m : Memory) : Nat → Nat → List Byte
  | _, 0 => []
  | a, n + 1 => Memory.read m a :: Memory.readBytes m (a + 1) n

/-- Write bytes from an address upward, in address order. -/
def Memory.writeBytes (m : Memory) : Nat → List Byte → Memory
  | _, [] => m
  | a, b :: bs => Memory.writeBytes (Memory.write m a b) (a + 1) bs

/-- The memory that `LOAD` builds: the image from address 0, zero above it (70_reset_and_hazards.md R143). -/
def Memory.ofImage (image : List Byte) : Memory := Memory.writeBytes [] 0 image

/-- A memory array of `size` bytes from pairs in any order; a pair outside the array names no byte of it. -/
def Memory.ofCells (size : Nat) : List Host.Cell → Memory
  | [] => []
  | c :: cs => if c.1 < size then Memory.write (Memory.ofCells size cs) c.1 c.2 else Memory.ofCells size cs

/-- The bounds rule, computed exactly (20_memory.md R50, D7). -/
def State.inBounds (s : State) (addr : Word) (n : Nat) : Bool :=
  decide (0 ≤ addr.toInt ∧ addr.toInt + n ≤ s.cfg.memSize)

/-- A data read `MemRead(addr, n)`, zero-extended to a word (00_scope.md R9; 41_memory_access.md R90). -/
def State.loadData (s : State) (n : Nat) (addr : Word) : Except Raise Word :=
  if s.inBounds addr n then .ok (BitVec.ofNat 32 (leValue (Memory.readBytes s.mem addr.toNat n)))
  else .error (.dataOutOfBounds addr)

/-- A data write `MemWrite(addr, n, v)` of the low `n` bytes of a word, little-endian (R9; R90). -/
def State.storeData (s : State) (n : Nat) (addr v : Word) : Except Raise State :=
  if s.inBounds addr n then .ok { s with mem := Memory.writeBytes s.mem addr.toNat (leBytes n v.toNat) }
  else .error (.dataOutOfBounds addr)

/-- The fetch `MemRead(pc, 12)`: the record's bytes in address order, from the current memory (42_control_transfer.md R97;
20_memory.md R50, R57). -/
def State.fetch (s : State) : Except Raise (List Byte) :=
  if s.inBounds s.pc Config.recordBytes then .ok (Memory.readBytes s.mem s.pc.toNat Config.recordBytes)
  else .error (.fetchOutOfBounds s.pc)

/-! ### Arithmetic under the state's policy, the PC logic, the output port -/

/-- `ovf` under the state's `OVERFLOW_POLICY` (00_scope.md R10). -/
def State.ovf (s : State) (v : Int) : Except Raise Word := Sys2Proof.Machine.ovf s.cfg.overflow v

/-- The PC advance `pc <- ovf(pc + 12)` (42_control_transfer.md R98, D25). -/
def State.advance (s : State) : Except Raise State := do
  let t ← s.ovf (s.pc.toInt + Config.recordBytes)
  .ok (s.writeReg s.cfg.idxPc t)

/-- `OutEmit(e)` (00_scope.md R11, R16). -/
def State.emit (s : State) (e : Event) : State := { s with out := s.out ++ [e] }

/-! ### How an instruction ends (00_scope.md R11; 42_control_transfer.md R97) -/

/-- The outcome of an instruction's pseudocode, with the state it has reached. -/
inductive Ending where
  /-- `continue`: the PC advance follows. -/
  | continues (s : State)
  /-- `halt`. -/
  | halts (s : State)
  /-- `Hold(kind)`: an input request was made. -/
  | holds (kind : InputKind) (s : State)
deriving DecidableEq, Repr

/-- Taking a fault: the status becomes FAULTED, the fault record is written, and nothing else changes (60_exceptions.md
R124; 00_scope.md R11). `s` is the state before the step; `op` is the record's `OP`, or 0 if the fetch failed. -/
def State.takeFault (s : State) (op : Word) (r : Raise) : State :=
  { s with status := .faulted, fault := { cause := r.cause, pc := s.pc, opcode := op, detail := r.detail } }

/-- Finish a step from `s` with what the instruction's pseudocode ended in (42_control_transfer.md R97, R98; 60_exceptions.md
R124): advance after `continue`, halt, hold, or take the fault that the pseudocode or the advance raised. -/
def finish (m : Mnemonic) (s : State) (body : Except Raise Ending) : Outcome :=
  match body with
  | .error r => .next (s.takeFault (s.cfg.opcodes.opcode m) r)
  | .ok (.continues t) =>
    match t.advance with
    | .error r => .next (s.takeFault (s.cfg.opcodes.opcode m) r)
    | .ok u => .next u
  | .ok (.halts t) => .next { t with status := .halted }
  | .ok (.holds kind t) => .next { t with pending := some kind }

/-! ### The shapes the meanings share -/

/-- Form RR with `A` read and overwritten: check both indices, read `x[A]` then `x[B]`, write the result into `x[A]`. The
result may depend on the divisor's index only in the fault it raises (40_alu.md R79, R81 to R86). -/
def binary (s : State) (ra rb : Word) (f : RegIdx → Word → Word → Except Raise Word) : Except Raise Ending := do
  let ia ← reg ra
  let ib ← reg rb
  let a ← s.readReg ia
  let b ← s.readReg ib
  let v ← f ib a b
  .ok (.continues (s.writeReg ia v))

/-- Load: check the index, read memory at the `B` word, write the register (41_memory_access.md R91, R92). -/
def loadInto (s : State) (n : Nat) (ra addr : Word) : Except Raise Ending := do
  let ia ← reg ra
  let v ← s.loadData n addr
  .ok (.continues (s.writeReg ia v))

/-- Store: check the index, read the register, write memory at the `B` word (41_memory_access.md R93, R94). -/
def storeFrom (s : State) (n : Nat) (ra addr : Word) : Except Raise Ending := do
  let ia ← reg ra
  let a ← s.readReg ia
  let t ← s.storeData n addr a
  .ok (.continues t)

/-- A control transfer to `target`: `pc <- ovf(target - 12)`; the advance adds the 12 back (42_control_transfer.md R99). -/
def transferTo (s : State) (target : Word) : Except Raise Ending := do
  let t ← s.ovf (target.toInt - Config.jumpBias)
  .ok (.continues (s.writeReg s.cfg.idxPc t))

/-- A conditional transfer: check the index, read the register, transfer if its signed value passes the test
(42_control_transfer.md R101 to R104). -/
def transferIf (s : State) (ra target : Word) (test : Int → Bool) : Except Raise Ending := do
  let ia ← reg ra
  let v ← s.readReg ia
  if test v.toInt then transferTo s target else .ok (.continues s)

/-- A conversion of the IO register: read `io`, compute, write `io` (43_io.md R109, R110). -/
def convertIo (s : State) (f : Word → Except Raise Word) : Except Raise Ending := do
  let v ← s.readReg Config.idxIo
  let t ← f v
  .ok (.continues (s.writeReg Config.idxIo t))

/-- An output instruction: read `io`, emit its event (43_io.md R114, R115). -/
def outputIo (s : State) (event : Word → Event) : Except Raise Ending := do
  let v ← s.readReg Config.idxIo
  .ok (.continues (s.emit (event v)))

end Sys2Proof.Machine
end

