-- ==== Sys2Proof/Machine/Alu.lean ====
section
/-! DEFINITION. The ten ALU and register-move instructions (40_alu.md). -/

namespace Sys2Proof.Machine

/-- `Add` (R79). -/
def execAdd (ra rb : Word) (s : State) : Outcome :=
  finish .add s (binary s ra rb fun _ a b => s.ovf (a.toInt + b.toInt))

/-- `AddImmediate` (R80). -/
def execAddImmediate (ra imm : Word) (s : State) : Outcome :=
  finish .addImmediate s do
    let ia ← reg ra
    let a ← s.readReg ia
    let v ← s.ovf (a.toInt + imm.toInt)
    .ok (.continues (s.writeReg ia v))

/-- `Subtract` (R81). -/
def execSubtract (ra rb : Word) (s : State) : Outcome :=
  finish .subtract s (binary s ra rb fun _ a b => s.ovf (a.toInt - b.toInt))

/-- `Multiply` (R82). -/
def execMultiply (ra rb : Word) (s : State) : Outcome :=
  finish .multiply s (binary s ra rb fun _ a b => s.ovf (a.toInt * b.toInt))

/-- `Divide` (R83, R77): both overflow policies fault on INT_MIN / -1. -/
def execDivide (ra rb : Word) (s : State) : Outcome :=
  finish .divide s (binary s ra rb quotient)

/-- `Compare`: the sign of the difference, which goes through `ovf` (R84, D21). -/
def execCompare (ra rb : Word) (s : State) : Outcome :=
  finish .compare s (binary s ra rb fun _ a b => do
    let d ← s.ovf (a.toInt - b.toInt)
    .ok (signOf d))

/-- `And`, logical and not bitwise (R85). -/
def execAnd (ra rb : Word) (s : State) : Outcome :=
  finish .logicalAnd s (binary s ra rb fun _ a b => .ok (ofTruth (decide (a ≠ 0) && decide (b ≠ 0))))

/-- `Or`, logical and not bitwise (R86). -/
def execOr (ra rb : Word) (s : State) : Outcome :=
  finish .logicalOr s (binary s ra rb fun _ a b => .ok (ofTruth (decide (a ≠ 0) || decide (b ≠ 0))))

/-- `Move`: the destination is checked but not read (R87). -/
def execMove (ra rb : Word) (s : State) : Outcome :=
  finish .move s do
    let ia ← reg ra
    let ib ← reg rb
    let b ← s.readReg ib
    .ok (.continues (s.writeReg ia b))

/-- `LoadAddress`: the raw immediate, with no memory access (R88). -/
def execLoadAddress (ra imm : Word) (s : State) : Outcome :=
  finish .loadAddress s do
    let ia ← reg ra
    .ok (.continues (s.writeReg ia imm))

end Sys2Proof.Machine
end

