-- ==== Sys2Proof/Machine/ConsoleIo.lean ====
section
/-! DEFINITION. The six instructions that use the IO register implicitly, and the completion of an input hold (43_io.md). -/

namespace Sys2Proof.Machine

/-- `ConvertASCIIToInteger`: -1 is the sentinel (R109, D22). -/
def execConvertASCIIToInteger (s : State) : Outcome :=
  finish .convertASCIIToInteger s (convertIo s fun v => do
    let t ← s.ovf (v.toInt - Config.asciiZero)
    .ok (digitOrMinusOne t))

/-- `ConvertIntegerToASCII`: 48 is the sentinel (R110, D22). -/
def execConvertIntegerToASCII (s : State) : Outcome :=
  finish .convertIntegerToASCII s (convertIo s fun v => do
    let t ← s.ovf (v.toInt + Config.asciiZero)
    .ok (digitCharOrZeroChar t))

/-- `InputASCII`, the request step (R111); `State.completeInput` is its completion. -/
def execInputASCII (s : State) : Outcome :=
  finish .inputASCII s (.ok (.holds .char s))

/-- `InputInteger`, the request step (R112); `State.completeInput` is its completion. -/
def execInputInteger (s : State) : Outcome :=
  finish .inputInteger s (.ok (.holds .int s))

/-- `OutputASCII`: bits 7:0 of `io` as a byte event (R114). -/
def execOutputASCII (s : State) : Outcome :=
  finish .outputASCII s (outputIo s fun v => .byte (v.extractLsb' 0 8))

/-- `OutputInteger`: `io` as an integer event (R115). -/
def execOutputInteger (s : State) : Outcome :=
  finish .outputInteger s (outputIo s fun v => .int v)

/-- The instruction that made a request of a kind. -/
def inputMnemonic : InputKind → Mnemonic
  | .char => .inputASCII
  | .int => .inputInteger

/-- What the answer does before the PC advance: `ok(v)` writes `io`, `fail` emits the diagnostic and leaves `io` as it is
(R111, R112; 60_exceptions.md R123). -/
def State.receive (s : State) (kind : InputKind) (a : Answer) : State :=
  match a with
  | .ok v => s.writeReg Config.idxIo v
  | .fail => s.emit (.diag kind)

/-- The completion transition of an input hold: the answer `a`, then the PC advance, then no request pending; `rest` are
the answers after it (R111 to R113). An advance that overflows would fault with nothing committed; after a fetch that passed
its bounds it cannot (R111; log 14). -/
def State.completeInput (s : State) (kind : InputKind) (a : Answer) (rest : List Answer) : State :=
  match (s.receive kind a).advance with
  | .error r => s.takeFault (s.cfg.opcodes.opcode (inputMnemonic kind)) r
  | .ok t => { t with pending := none, answers := rest }

end Sys2Proof.Machine
end

