-- ==== Sys2Proof/Machine/Control.lean ====
section
/-! DEFINITION. The six control transfers and End (42_control_transfer.md). -/

namespace Sys2Proof.Machine

/-- `Jump` (R99). -/
def execJump (target : Word) (s : State) : Outcome :=
  finish .jump s (transferTo s target)

/-- `JumpRelative`: absolute, through a register (R100, C6). -/
def execJumpRelative (ra : Word) (s : State) : Outcome :=
  finish .jumpRelative s do
    let ia ← reg ra
    let v ← s.readReg ia
    transferTo s v

/-- `CompareZeroJump` (R101). -/
def execCompareZeroJump (ra target : Word) (s : State) : Outcome :=
  finish .compareZeroJump s (transferIf s ra target fun v => decide (v = 0))

/-- `NonZeroJump` (R102). -/
def execNonZeroJump (ra target : Word) (s : State) : Outcome :=
  finish .nonZeroJump s (transferIf s ra target fun v => decide (v ≠ 0))

/-- `GreaterThanZeroJump`, signed (R103). -/
def execGreaterThanZeroJump (ra target : Word) (s : State) : Outcome :=
  finish .greaterThanZeroJump s (transferIf s ra target fun v => decide (0 < v))

/-- `LessThanZeroJump`, signed (R104). -/
def execLessThanZeroJump (ra target : Word) (s : State) : Outcome :=
  finish .lessThanZeroJump s (transferIf s ra target fun v => decide (v < 0))

/-- `End`: halt, with no other effect (R105). -/
def execEnd (s : State) : Outcome :=
  finish .endRun s (.ok (.halts s))

end Sys2Proof.Machine
end

