-- ==== Sys2Proof/Machine/LoadStore.lean ====
section
/-! DEFINITION. The four load and store instructions (41_memory_access.md). -/

namespace Sys2Proof.Machine

/-- `LoadByte`: one byte, zero-extended (R91). -/
def execLoadByte (ra addr : Word) (s : State) : Outcome :=
  finish .loadByte s (loadInto s 1 ra addr)

/-- `LoadWord`: a 16-bit little-endian halfword, zero-extended (R92, C5). -/
def execLoadWord (ra addr : Word) (s : State) : Outcome :=
  finish .loadWord s (loadInto s 2 ra addr)

/-- `StoreByte`: bits 7:0 of the register (R93). -/
def execStoreByte (ra addr : Word) (s : State) : Outcome :=
  finish .storeByte s (storeFrom s 1 ra addr)

/-- `StoreWord`: bits 15:0 of the register, little-endian (R94, C5). -/
def execStoreWord (ra addr : Word) (s : State) : Outcome :=
  finish .storeWord s (storeFrom s 2 ra addr)

end Sys2Proof.Machine
end

