-- ==== Sys2Proof/Machine/Dispatch.lean ====
section
/-! DEFINITION. The dispatcher: one arm per instruction of the opcode table (00_scope.md R1; 30_encoding.md R67). -/

namespace Sys2Proof.Machine

def exec (i : Instr) (s : State) : Host.Outcome State Fault Refusal :=
  match i with
  | .add ra rb => Sys2Proof.Machine.execAdd ra rb s
  | .addImmediate ra imm => Sys2Proof.Machine.execAddImmediate ra imm s
  | .logicalAnd ra rb => Sys2Proof.Machine.execAnd ra rb s
  | .compare ra rb => Sys2Proof.Machine.execCompare ra rb s
  | .compareZeroJump ra target => Sys2Proof.Machine.execCompareZeroJump ra target s
  | .convertASCIIToInteger => Sys2Proof.Machine.execConvertASCIIToInteger s
  | .convertIntegerToASCII => Sys2Proof.Machine.execConvertIntegerToASCII s
  | .divide ra rb => Sys2Proof.Machine.execDivide ra rb s
  | .greaterThanZeroJump ra target => Sys2Proof.Machine.execGreaterThanZeroJump ra target s
  | .inputASCII => Sys2Proof.Machine.execInputASCII s
  | .inputInteger => Sys2Proof.Machine.execInputInteger s
  | .jump target => Sys2Proof.Machine.execJump target s
  | .jumpRelative ra => Sys2Proof.Machine.execJumpRelative ra s
  | .lessThanZeroJump ra target => Sys2Proof.Machine.execLessThanZeroJump ra target s
  | .loadAddress ra imm => Sys2Proof.Machine.execLoadAddress ra imm s
  | .loadByte ra addr => Sys2Proof.Machine.execLoadByte ra addr s
  | .loadWord ra addr => Sys2Proof.Machine.execLoadWord ra addr s
  | .move ra rb => Sys2Proof.Machine.execMove ra rb s
  | .multiply ra rb => Sys2Proof.Machine.execMultiply ra rb s
  | .nonZeroJump ra target => Sys2Proof.Machine.execNonZeroJump ra target s
  | .logicalOr ra rb => Sys2Proof.Machine.execOr ra rb s
  | .outputASCII => Sys2Proof.Machine.execOutputASCII s
  | .outputInteger => Sys2Proof.Machine.execOutputInteger s
  | .storeByte ra addr => Sys2Proof.Machine.execStoreByte ra addr s
  | .storeWord ra addr => Sys2Proof.Machine.execStoreWord ra addr s
  | .subtract ra rb => Sys2Proof.Machine.execSubtract ra rb s
  | .endRun => Sys2Proof.Machine.execEnd s

end Sys2Proof.Machine
end

