-- ==== Sys2Proof/Machine/HostPort.lean ====
section
/-! DEFINITION. The host's transactions `LOAD` and `RUN` and its view of the core (00_scope.md R13, R14;
70_reset_and_hazards.md R141 to R146). `STEP` is `step`. -/

namespace Sys2Proof.Machine

/-- `min(n, INT_MAX)` as an i32 (R144). -/
def saturatedLength (n : Nat) : Word := BitVec.ofNat 32 (min n 2147483647)

/-- `LOAD(image)` when the image fits (R143; 10_state.md R30, R41). Registers under `REG_RESET = unwritten`: log 3. -/
def State.loadImage (s : State) (image : List Byte) : State :=
  { s with
    x := registersAfterLoad
    written := writtenAfterLoad s.cfg.regReset
    mem := Memory.ofImage image
    status := .loaded
    pending := none
    fault := FaultRecord.zero
    out := [] }

/-- `LOAD(image)` when the image is longer than memory (R144). Registers and memory are then unspecified: free values (U15;
log 9). The other fields stay (log 10). -/
def State.rejectImage (s : State) (image : List Byte) : State :=
  { s with
    x := Config.unspecifiedRegisters s.freeDraws
    mem := Memory.ofCells s.cfg.memSize (Config.unspecifiedMemory s.freeDraws)
    freeDraws := s.freeDraws + 1
    status := .loadError
    fault := { cause := .loadError, pc := 0, opcode := 0, detail := saturatedLength image.length } }

/-- `LOAD(image)` (R143, R144). -/
def State.load (s : State) (image : List Byte) : State :=
  if image.length ≤ s.cfg.memSize then s.loadImage image else s.rejectImage image

/-- `RUN(start)`: accepted only in LOADED, otherwise refused with nothing changed; the start is not checked (R145, R146). -/
def State.run (s : State) (start : Word) : State :=
  if s.status = .loaded then
    { s.writeReg s.cfg.idxPc start with pending := none, status := .running }
  else s

/-- Perform one host command. -/
def State.perform (s : State) (c : Command) : State :=
  match c with
  | .load image => s.load image
  | .run start => s.run start

/-- What the host can read of the core (R14). -/
structure HostView where
  status : Status
  request : Option InputKind
  faultRecord : Option FaultRecord
  registers : Option (Vector Word 13)
  writtenBits : Option (Vector Bool 13)
  memory : Option Memory
  events : List Event
deriving DecidableEq, Repr

/-- The host's view. The status always (R14). The fault record whenever the status is not RUNNING (R146); the narrower words
of R14, FAULTED or LOAD_ERROR, are read as when the core exposes it unasked, the model's reading (log 22). Registers, written
bits and memory whenever the status is not RUNNING (R14, R146), but not in EMPTY, where they are not observable (R141; log 22).
The request and the events always (log 22). -/
def State.inspect (s : State) : HostView where
  status := s.status
  request := s.pending
  faultRecord := if s.status = .running then none else some s.fault
  registers := if s.status = .running ∨ s.status = .empty then none else some s.x
  writtenBits := if s.status = .running ∨ s.status = .empty then none else some s.written
  memory := if s.status = .running ∨ s.status = .empty then none else some s.mem
  events := s.out

end Sys2Proof.Machine
end

