-- ==== Sys2Proof/Machine/Loop.lean ====
section
/-! DEFINITION. The execution loop: one instruction step, one completion of an input hold, one host command
(42_control_transfer.md R97; 43_io.md R113; 70_reset_and_hazards.md R143 to R146). -/

namespace Sys2Proof.Machine

/-- One instruction step: fetch, decode, execute (R97). A fetch that fails records the opcode 0, an unknown opcode records
itself (60_exceptions.md R124). -/
def instructionStep (s : State) : Outcome :=
  match s.fetch with
  | .error r => .next (s.takeFault 0 r)
  | .ok bytes =>
    match decodeRecord s.cfg.opcodes (Record.ofBytes bytes) with
    | none => .next (s.takeFault (Record.ofBytes bytes).op (.unknownOpcode (Record.ofBytes bytes).op))
    | some i => exec i s

/-- While an input request is pending only the host's answer moves the core (R113; log 6, log 7). -/
def holdStep (s : State) (kind : InputKind) : Outcome :=
  match s.answers with
  | [] => .fault (.inputUnanswered kind)
  | a :: rest => .next (s.completeInput kind a rest)

/-- While the status is not RUNNING only a host command moves the core (R106, R146; log 6, log 7). -/
def commandStep (s : State) : Outcome :=
  match s.commands with
  | [] => .fault (.noStepEnabled s.status)
  | c :: rest => .next ({ s with commands := rest }.perform c)

/-- The one transition that the state enables (R97, R113, R146). -/
def coreStep (s : State) : Outcome :=
  match s.status with
  | .running =>
    match s.pending with
    | none => instructionStep s
    | some kind => holdStep s kind
  | .empty => commandStep s
  | .loaded => commandStep s
  | .halted => commandStep s
  | .faulted => commandStep s
  | .loadError => commandStep s

/-- Bytes placed where the next fetch reads them, with the core running: at `pc` if the record fits there, else at 0. It
stands for a `LOAD` whose image holds the bytes there and a `RUN` from that address (log 4). -/
def State.placeRecord (s : State) (bytes : List Byte) : State :=
  let start : Word := if s.inBounds s.pc Config.recordBytes then s.pc else 0
  { s.writeReg s.cfg.idxPc start with
    mem := Memory.writeBytes s.mem start.toNat bytes
    status := .running
    pending := none }

end Sys2Proof.Machine
end

