-- ==== Sys2Proof/Machine/Step.lean ====
section
/-! DEFINITION. One step of the machine, and the placing of an instruction where it fetches. -/

namespace Sys2Proof.Machine

/-- One step: the one transition that the state enables, or why there is none. -/
def step (s : State) : Host.Outcome State Fault Refusal := coreStep s

/-- `s` with the instruction whose bits are `w` stored where the next fetch reads it, and the core running (log 4). -/
def State.withFetchWord (s : State) (nbits w : Nat) : State := s.placeRecord (tableWordBytes nbits w)

end Sys2Proof.Machine
end

