-- ==== Sys2Proof/Safety.lean ====
section
/-! DEFINITION. The terms claims use: what the spec's tables say an instruction reads, writes and can raise, the states it leaves,
and the invariant of a run. -/

namespace Sys2Proof.Machine

/-! ### The spec's tables -/

/-- The registers an instruction reads as operands, in the order it reads them, as operand words (10_state.md R28, "reads";
60_exceptions.md R125 (4)). -/
def readWords : Instr → List Word
  | .add ra rb => [ra, rb]
  | .addImmediate ra _ => [ra]
  | .logicalAnd ra rb => [ra, rb]
  | .compare ra rb => [ra, rb]
  | .compareZeroJump ra _ => [ra]
  | .convertASCIIToInteger => [regWord Config.idxIo]
  | .convertIntegerToASCII => [regWord Config.idxIo]
  | .divide ra rb => [ra, rb]
  | .greaterThanZeroJump ra _ => [ra]
  | .inputASCII => []
  | .inputInteger => []
  | .jump _ => []
  | .jumpRelative ra => [ra]
  | .lessThanZeroJump ra _ => [ra]
  | .loadAddress _ _ => []
  | .loadByte _ _ => []
  | .loadWord _ _ => []
  | .move _ rb => [rb]
  | .multiply ra rb => [ra, rb]
  | .nonZeroJump ra _ => [ra]
  | .logicalOr ra rb => [ra, rb]
  | .outputASCII => [regWord Config.idxIo]
  | .outputInteger => [regWord Config.idxIo]
  | .storeByte ra _ => [ra]
  | .storeWord ra _ => [ra]
  | .subtract ra rb => [ra, rb]
  | .endRun => []

/-- The register, other than `pc`, that an instruction's own step writes (R28, "writes"). An input instruction writes `io`
only when its hold is completed. -/
def writtenWord : Instr → Option Word
  | .add ra _ => some ra
  | .addImmediate ra _ => some ra
  | .logicalAnd ra _ => some ra
  | .compare ra _ => some ra
  | .compareZeroJump _ _ => none
  | .convertASCIIToInteger => some (regWord Config.idxIo)
  | .convertIntegerToASCII => some (regWord Config.idxIo)
  | .divide ra _ => some ra
  | .greaterThanZeroJump _ _ => none
  | .inputASCII => none
  | .inputInteger => none
  | .jump _ => none
  | .jumpRelative _ => none
  | .lessThanZeroJump _ _ => none
  | .loadAddress ra _ => some ra
  | .loadByte ra _ => some ra
  | .loadWord ra _ => some ra
  | .move ra _ => some ra
  | .multiply ra _ => some ra
  | .nonZeroJump _ _ => none
  | .logicalOr ra _ => some ra
  | .outputASCII => none
  | .outputInteger => none
  | .storeByte _ _ => none
  | .storeWord _ _ => none
  | .subtract ra _ => some ra
  | .endRun => none

/-- The address and the number of bytes an instruction stores (41_memory_access.md R93 to R95). -/
def storedRange : Instr → Option (Word × Nat)
  | .add _ _ => none
  | .addImmediate _ _ => none
  | .logicalAnd _ _ => none
  | .compare _ _ => none
  | .compareZeroJump _ _ => none
  | .convertASCIIToInteger => none
  | .convertIntegerToASCII => none
  | .divide _ _ => none
  | .greaterThanZeroJump _ _ => none
  | .inputASCII => none
  | .inputInteger => none
  | .jump _ => none
  | .jumpRelative _ => none
  | .lessThanZeroJump _ _ => none
  | .loadAddress _ _ => none
  | .loadByte _ _ => none
  | .loadWord _ _ => none
  | .move _ _ => none
  | .multiply _ _ => none
  | .nonZeroJump _ _ => none
  | .logicalOr _ _ => none
  | .outputASCII => none
  | .outputInteger => none
  | .storeByte _ addr => some (addr, 1)
  | .storeWord _ addr => some (addr, 2)
  | .subtract _ _ => none
  | .endRun => none

/-- The causes an instruction can raise after its fetch and decode, the PC advance included (60_exceptions.md R121, "raised
by"). -/
def raisedCauses : Instr → List Cause
  | .add _ _ => [.invalidRegister, .uninitialisedRegister, .arithmeticOverflow]
  | .addImmediate _ _ => [.invalidRegister, .uninitialisedRegister, .arithmeticOverflow]
  | .logicalAnd _ _ => [.invalidRegister, .uninitialisedRegister, .arithmeticOverflow]
  | .compare _ _ => [.invalidRegister, .uninitialisedRegister, .arithmeticOverflow]
  | .compareZeroJump _ _ => [.invalidRegister, .uninitialisedRegister, .arithmeticOverflow]
  | .convertASCIIToInteger => [.uninitialisedRegister, .arithmeticOverflow]
  | .convertIntegerToASCII => [.uninitialisedRegister, .arithmeticOverflow]
  | .divide _ _ => [.invalidRegister, .uninitialisedRegister, .divideByZero, .arithmeticOverflow]
  | .greaterThanZeroJump _ _ => [.invalidRegister, .uninitialisedRegister, .arithmeticOverflow]
  | .inputASCII => []
  | .inputInteger => []
  | .jump _ => [.arithmeticOverflow]
  | .jumpRelative _ => [.invalidRegister, .uninitialisedRegister, .arithmeticOverflow]
  | .lessThanZeroJump _ _ => [.invalidRegister, .uninitialisedRegister, .arithmeticOverflow]
  | .loadAddress _ _ => [.invalidRegister, .arithmeticOverflow]
  | .loadByte _ _ => [.invalidRegister, .dataOutOfBounds, .arithmeticOverflow]
  | .loadWord _ _ => [.invalidRegister, .dataOutOfBounds, .arithmeticOverflow]
  | .move _ _ => [.invalidRegister, .uninitialisedRegister, .arithmeticOverflow]
  | .multiply _ _ => [.invalidRegister, .uninitialisedRegister, .arithmeticOverflow]
  | .nonZeroJump _ _ => [.invalidRegister, .uninitialisedRegister, .arithmeticOverflow]
  | .logicalOr _ _ => [.invalidRegister, .uninitialisedRegister, .arithmeticOverflow]
  | .outputASCII => [.uninitialisedRegister, .arithmeticOverflow]
  | .outputInteger => [.uninitialisedRegister, .arithmeticOverflow]
  | .storeByte _ _ => [.invalidRegister, .uninitialisedRegister, .dataOutOfBounds, .arithmeticOverflow]
  | .storeWord _ _ => [.invalidRegister, .uninitialisedRegister, .dataOutOfBounds, .arithmeticOverflow]
  | .subtract _ _ => [.invalidRegister, .uninitialisedRegister, .arithmeticOverflow]
  | .endRun => []

/-- The control transfers (42_control_transfer.md R99 to R104). -/
def isTransfer : Instr → Bool
  | .add _ _ => false
  | .addImmediate _ _ => false
  | .logicalAnd _ _ => false
  | .compare _ _ => false
  | .compareZeroJump _ _ => true
  | .convertASCIIToInteger => false
  | .convertIntegerToASCII => false
  | .divide _ _ => false
  | .greaterThanZeroJump _ _ => true
  | .inputASCII => false
  | .inputInteger => false
  | .jump _ => true
  | .jumpRelative _ => true
  | .lessThanZeroJump _ _ => true
  | .loadAddress _ _ => false
  | .loadByte _ _ => false
  | .loadWord _ _ => false
  | .move _ _ => false
  | .multiply _ _ => false
  | .nonZeroJump _ _ => true
  | .logicalOr _ _ => false
  | .outputASCII => false
  | .outputInteger => false
  | .storeByte _ _ => false
  | .storeWord _ _ => false
  | .subtract _ _ => false
  | .endRun => false

/-- Whether a mnemonic's form uses the `A` word (30_encoding.md R65): every form but N. -/
def Mnemonic.usesA (m : Mnemonic) : Bool :=
  decide (m ∉ [Mnemonic.convertASCIIToInteger, .convertIntegerToASCII, .inputASCII, .inputInteger, .outputASCII,
    .outputInteger, .endRun])

/-- Whether a mnemonic's form uses the `B` word (R65): every form but N, T and R. -/
def Mnemonic.usesB (m : Mnemonic) : Bool := Mnemonic.usesA m && decide (m ∉ [Mnemonic.jump, .jumpRelative])

/-! ### The states an instruction leaves -/

/-- The signed value of a register. -/
def State.valueOf (s : State) (r : RegIdx) : Int := (s.x.get r).toInt

/-- An exact result that `ovf` lets pass: any under `wrap`, an i32 under `fault` (00_scope.md R10). -/
def State.fits (s : State) (v : Int) : Bool := decide (s.cfg.overflow = .wrap) || decide (intMin ≤ v ∧ v ≤ intMax)

/-- `s` after a fault of the step that began in `s` (60_exceptions.md R124). -/
def State.faultedBy (s : State) (opcode : Word) (cause : Cause) (detail : Word) : State :=
  { s with status := .faulted, fault := { cause := cause, pc := s.x.get s.cfg.idxPc, opcode := opcode, detail := detail } }

/-- `s` with the next fetch at `target` and nothing else changed. -/
def State.goTo (s : State) (target : Word) : State :=
  { s with
    x := Vector.ofFn fun r => if r = s.cfg.idxPc then target else s.x.get r
    written := Vector.ofFn fun r => decide (r = s.cfg.idxPc) || s.written.get r }

/-- The program counter's value, before the advance, of an instruction that writes `v` to register `d` (R98). -/
def State.pcBeforeAdvance (s : State) (d : RegIdx) (v : Word) : Word :=
  if d = s.cfg.idxPc then v else s.x.get s.cfg.idxPc

/-- `s` after an instruction that wrote `v` to register `d` and continued: the next fetch is 12 past the program counter,
`v + 12` if `d` is the program counter itself (R98, 42_control_transfer.md R108), and nothing else changed. -/
def State.afterWrite (s : State) (d : RegIdx) (v : Word) : State :=
  { s with
    x := Vector.ofFn fun r =>
      if r = s.cfg.idxPc then wrap32 ((s.pcBeforeAdvance d v).toInt + 12) else if r = d then v else s.x.get r
    written := Vector.ofFn fun r => decide (r = s.cfg.idxPc) || decide (r = d) || s.written.get r }

/-- The advance after writing `v` to `d` does not overflow (R98). -/
def State.advanceFits (s : State) (d : RegIdx) (v : Word) : Bool := s.fits ((s.pcBeforeAdvance d v).toInt + 12)

/-- `s` after an instruction that continued and wrote no register. -/
def State.afterNone (s : State) : State := s.goTo (wrap32 (s.valueOf s.cfg.idxPc + 12))

/-- The advance of an instruction that writes no register does not overflow (R98). -/
def State.plainAdvanceFits (s : State) : Bool := s.fits (s.valueOf s.cfg.idxPc + 12)

/-- The transfer arithmetic for a target does not overflow: `target - 12`, and the advance back (R99). -/
def State.transferFits (s : State) (target : Word) : Bool := s.fits (target.toInt - 12)

/-- The faults of an instruction's register operands, in the order of 60_exceptions.md R125 (3) and (4): an invalid `A`
word, then an invalid `B` word, then the first unreadable register that the instruction reads (10_state.md R29, R30). -/
def OperandFaults (i : Instr) (s : State) : Prop :=
  (∀ w, i.regA = some w → validRegWord w = false →
    exec i s = .next (s.faultedBy (s.cfg.opcodes.opcode i.mnemonic) .invalidRegister w)) ∧
  (∀ w, i.regA.all validRegWord = true → i.regB = some w → validRegWord w = false →
    exec i s = .next (s.faultedBy (s.cfg.opcodes.opcode i.mnemonic) .invalidRegister w)) ∧
  (∀ before after r, i.wellFormed = true → readWords i = before ++ regWord r :: after →
    (∀ q, regWord q ∈ before → s.readable q = true) → s.readable r = false →
    exec i s = .next (s.faultedBy (s.cfg.opcodes.opcode i.mnemonic) .uninitialisedRegister (regWord r)))

/-- The rule of a conditional jump that is taken when its register's signed value satisfies `taken` (42_control_transfer.md R101
to R104): the operand faults; taken, the overflow of `target - 12` or the next fetch at the target; not taken, the plain
advance. -/
def ConditionalJumpRule (jump : Word → Word → Instr) (taken : Int → Prop) : Prop :=
  ∀ s : State,
    (∀ ra target, OperandFaults (jump ra target) s) ∧
    (∀ ia target, s.readable ia = true → taken (s.valueOf ia) → s.transferFits target = false →
      exec (jump (regWord ia) target) s =
        .next (s.faultedBy (s.cfg.opcodes.opcode (jump (regWord ia) target).mnemonic) .arithmeticOverflow 0)) ∧
    (∀ ia target, s.readable ia = true → taken (s.valueOf ia) → s.transferFits target = true →
      exec (jump (regWord ia) target) s = .next (s.goTo target)) ∧
    (∀ ia target, s.readable ia = true → ¬ taken (s.valueOf ia) → s.plainAdvanceFits = true →
      exec (jump (regWord ia) target) s = .next s.afterNone)

/-- The rule of an ordinary instruction that writes `v` to `pc` (42_control_transfer.md R98; 60_exceptions.md R125 (5)): the next
fetch is at `v + 12` and nothing else changes, or that sum overflows and the advance faults. -/
def PcWriteRule (i : Instr) (s : State) (v : Word) : Prop :=
  (s.fits (v.toInt + 12) = true → exec i s = .next (s.goTo (wrap32 (v.toInt + 12)))) ∧
  (s.fits (v.toInt + 12) = false →
    exec i s = .next (s.faultedBy (s.cfg.opcodes.opcode i.mnemonic) .arithmeticOverflow 0))

/-! ### The invariant of a run -/

/-- The memory list is canonical and names only bytes of the array (20_memory.md R45). -/
abbrev State.memoryLegal (s : State) : Prop := s.mem.wf = true ∧ ∀ c ∈ s.mem, c.1 < s.cfg.memSize

/-- A request is pending only in a run, and then its record lies in memory (R34, R111); no claim is made of EMPTY and LOAD_ERROR,
whose other fields are unspecified (R41). -/
abbrev State.pendingLegal (s : State) : Prop :=
  (s.status = .loaded ∨ s.status = .halted ∨ s.status = .faulted → s.pending = none) ∧
  (s.status = .running → s.pending ≠ none → s.inBounds s.pc Config.recordBytes = true)

/-- The written bits: `pc` is written throughout a run, and under `REG_RESET = zero` every bit is set once an image is loaded
(10_state.md R30, R41). -/
abbrev State.writtenLegal (s : State) : Prop :=
  (s.status = .running → s.written.get s.cfg.idxPc = true) ∧
  (s.cfg.regReset = .zero → s.status ≠ .empty → s.status ≠ .loadError → ∀ r, s.written.get r = true)

/-- The fault record: all zero until a fault or a load error writes it, the faulting address still in `pc` when FAULTED (R35;
60_exceptions.md R121, R124, R126). -/
abbrev State.faultLegal (s : State) : Prop :=
  (s.status = .loaded ∨ s.status = .running ∨ s.status = .halted → s.fault = FaultRecord.zero) ∧
  (s.status = .faulted → s.fault.pc = s.pc ∧ s.fault.cause ≠ .none ∧ s.fault.cause ≠ .loadError) ∧
  (s.status = .loadError → s.fault.cause = .loadError ∧ s.fault.pc = 0 ∧ s.fault.opcode = 0)

/-- The invariant of the core: legal parameters, memory, request, written bits and fault record. -/
abbrev State.Inv (s : State) : Prop :=
  s.cfg.wf = true ∧ s.memoryLegal ∧ s.pendingLegal ∧ s.writtenLegal ∧ s.faultLegal

end Sys2Proof.Machine
end

