-- ==== Sys2Proof/Certificates/Slice0/Obligations.lean ====
section
/-! DEFINITION. The statements for the provers. An end state is written with `State.afterWrite`, `State.goTo`, `State.afterNone`
and `State.faultedBy` of Safety.lean, which give every field; so each equation `exec i s = .next t` is the instruction's result,
its frame and its completion at once. -/

open Sys2Proof Sys2Proof.Machine

/-! ### Encoding -/

/-- Decoding the 12 bytes of an instruction gives back the instruction, for every instruction (ill-formed register words
included) and every injective opcode map (30_encoding.md R63, R65, R67). -/
def Obligations.DecodingAnEncodedInstructionGivesItBack : Prop :=
  ∀ (map : OpcodeMap) (i : Instr), map.injective = true → decode map (encode map i) = .ok i

/-- Words written out from the spec's encodings and its worked examples (95_test_vectors.md S1 to S4, P3) decode to the
instructions they stand for, in the reference map of R67. -/
def Obligations.SampleRecordsDecode : Prop :=
  decode OpcodeMap.reference [0x0F, 0, 0, 0, 0, 0, 0, 0, 5, 0, 0, 0] = .ok (.loadAddress 0 5) ∧
  decode OpcodeMap.reference [5, 0, 0, 0, 0, 0, 0, 0, 0x24, 0, 0, 0] = .ok (.compareZeroJump 0 36) ∧
  decode OpcodeMap.reference [8, 0, 0, 0, 1, 0, 0, 0, 2, 0, 0, 0] = .ok (.divide 1 2) ∧
  decode OpcodeMap.reference [0x18, 0, 0, 0, 1, 0, 0, 0, 0xE8, 3, 0, 0] = .ok (.storeByte 1 1000) ∧
  decode OpcodeMap.reference [0x0C, 0, 0, 0, 0x30, 0, 0, 0, 0, 0, 0, 0] = .ok (.jump 48) ∧
  decode OpcodeMap.reference [6, 0, 0, 0, 0, 0, 0, 0, 0, 0, 0, 0] = .ok .convertASCIIToInteger

/-- The only 12 bytes that do not decode are those whose `OP` word is the value of no mnemonic, and they are reported with
that word (30_encoding.md R69, R70; decision D13). -/
def Obligations.OnlyUnknownOpcodesAreIllegal : Prop :=
  ∀ (map : OpcodeMap) (bytes : List Byte) (e : DecodeError), bytes.length = 12 →
    (decode map bytes = .error e ↔
      e = .unknownOpcode (Record.ofBytes bytes).op ∧ ∀ m, map.opcode m ≠ (Record.ofBytes bytes).op)

/-- Two records that agree in the opcode and in the words its form uses decode alike: an unused operand word may hold any value
(30_encoding.md R65, R66, R70; decision D6). -/
def Obligations.UnusedOperandWordsDoNotMatter : Prop :=
  ∀ (map : OpcodeMap) (r r' : Record), r'.op = r.op →
    (∀ m, map.opcode m = r.op → Mnemonic.usesA m = true → r'.a = r.a) →
    (∀ m, map.opcode m = r.op → Mnemonic.usesB m = true → r'.b = r.b) →
    decodeRecord map r' = decodeRecord map r

/-! ### The execution loop -/

/-- In a running core with no input pending, when the 12 bytes at `pc` lie in memory and decode to `i`, the step is `exec i`, which
includes the PC advance (42_control_transfer.md R97; decision D11). -/
def Obligations.StepRunsTheDecodedInstruction : Prop :=
  ∀ (s : State) (i : Instr), s.status = .running → s.pending = none → 0 ≤ s.pc.toInt → s.pc.toInt + 12 ≤ s.cfg.memSize →
    decode s.cfg.opcodes (Memory.readBytes s.mem s.pc.toNat 12) = .ok i → step s = exec i s

/-- A fetch whose record is not wholly in memory faults with the opcode recorded as 0 (20_memory.md R50; 10_state.md R32;
decisions D7, D11). -/
def Obligations.FetchOutOfBoundsFaults : Prop :=
  ∀ s : State, s.status = .running → s.pending = none → (s.pc.toInt < 0 ∨ (s.cfg.memSize : Int) < s.pc.toInt + 12) →
    step s = .next (s.faultedBy 0 .fetchOutOfBounds s.pc)

/-- A record with an unknown opcode faults with that opcode recorded, whatever its operand words are (30_encoding.md R69, R71;
decision D13). -/
def Obligations.UnknownOpcodeFaults : Prop :=
  ∀ (s : State) (op : Word), s.status = .running → s.pending = none → 0 ≤ s.pc.toInt → s.pc.toInt + 12 ≤ s.cfg.memSize →
    op = (Record.ofBytes (Memory.readBytes s.mem s.pc.toNat 12)).op → (∀ m, s.cfg.opcodes.opcode m ≠ op) →
    step s = .next (s.faultedBy op .unknownOpcode op)

/-- No step is enabled in a status other than RUNNING (42_control_transfer.md R97, R106). That the model then stops with a
reason of its own is the model's choice (log 7). -/
def Obligations.StoppedCoreEnablesNoStep : Prop :=
  ∀ s : State, s.status ≠ .running → s.commands = [] → step s = .fault (.noStepEnabled s.status)

/-- HALTED, FAULTED and LOAD_ERROR are left only by a `LOAD`; a `RUN` there changes nothing (R106; 60_exceptions.md R126;
70_reset_and_hazards.md R142, R146; decision D19). That a refused `RUN` is used up is the model's choice (log 16). -/
def Obligations.OnlyLoadLeavesATerminalStatus : Prop :=
  ∀ s t : State, s.status = .halted ∨ s.status = .faulted ∨ s.status = .loadError → step s = .next t →
    (∃ image rest, s.commands = .load image :: rest) ∨
    (∃ start rest, s.commands = .run start :: rest ∧ t = { s with commands := rest })

/-- The parameters of R6 never change. -/
def Obligations.ParametersNeverChange : Prop :=
  ∀ s t : State, step s = .next t → t.cfg = s.cfg

/-- Every instruction answers a next state, in every state: the spec's faults are taken, none stops the model (60_exceptions.md
R124; log 8). -/
def Obligations.EveryInstructionAnswersANextState : Prop :=
  ∀ (i : Instr) (s : State), ∃ t, exec i s = .next t

/-! ### Arithmetic, logic and moves

Each rule's last clause asks, by `advanceFits`, that the PC advance does not overflow (42_control_transfer.md R98). Where it
does overflow past a value written to `pc`, `Obligations.WritingPcContinuesTwelvePastTheValue` states the fault. -/

/-- Add (40_alu.md R79), both overflow policies. -/
def Obligations.AddFollowsItsRule : Prop :=
  OpcodeMap.reference.opcode .add = 1 ∧
  ∀ s : State,
    (∀ ra rb, OperandFaults (.add ra rb) s) ∧
    (∀ ia ib, s.readable ia = true → s.readable ib = true → s.fits (s.valueOf ia + s.valueOf ib) = false →
      exec (.add (regWord ia) (regWord ib)) s = .next (s.faultedBy (s.cfg.opcodes.opcode .add) .arithmeticOverflow 0)) ∧
    (∀ ia ib, s.readable ia = true → s.readable ib = true → s.fits (s.valueOf ia + s.valueOf ib) = true →
      s.advanceFits ia (wrap32 (s.valueOf ia + s.valueOf ib)) = true →
      exec (.add (regWord ia) (regWord ib)) s = .next (s.afterWrite ia (wrap32 (s.valueOf ia + s.valueOf ib))))

/-- AddImmediate (40_alu.md R80). -/
def Obligations.AddImmediateFollowsItsRule : Prop :=
  OpcodeMap.reference.opcode .addImmediate = 2 ∧
  ∀ s : State,
    (∀ ra imm, OperandFaults (.addImmediate ra imm) s) ∧
    (∀ ia imm, s.readable ia = true → s.fits (s.valueOf ia + imm.toInt) = false →
      exec (.addImmediate (regWord ia) imm) s =
        .next (s.faultedBy (s.cfg.opcodes.opcode .addImmediate) .arithmeticOverflow 0)) ∧
    (∀ ia imm, s.readable ia = true → s.fits (s.valueOf ia + imm.toInt) = true →
      s.advanceFits ia (wrap32 (s.valueOf ia + imm.toInt)) = true →
      exec (.addImmediate (regWord ia) imm) s = .next (s.afterWrite ia (wrap32 (s.valueOf ia + imm.toInt))))

/-- Subtract (40_alu.md R81). -/
def Obligations.SubtractFollowsItsRule : Prop :=
  OpcodeMap.reference.opcode .subtract = 26 ∧
  ∀ s : State,
    (∀ ra rb, OperandFaults (.subtract ra rb) s) ∧
    (∀ ia ib, s.readable ia = true → s.readable ib = true → s.fits (s.valueOf ia - s.valueOf ib) = false →
      exec (.subtract (regWord ia) (regWord ib)) s =
        .next (s.faultedBy (s.cfg.opcodes.opcode .subtract) .arithmeticOverflow 0)) ∧
    (∀ ia ib, s.readable ia = true → s.readable ib = true → s.fits (s.valueOf ia - s.valueOf ib) = true →
      s.advanceFits ia (wrap32 (s.valueOf ia - s.valueOf ib)) = true →
      exec (.subtract (regWord ia) (regWord ib)) s = .next (s.afterWrite ia (wrap32 (s.valueOf ia - s.valueOf ib))))

/-- Multiply (40_alu.md R82). -/
def Obligations.MultiplyFollowsItsRule : Prop :=
  OpcodeMap.reference.opcode .multiply = 19 ∧
  ∀ s : State,
    (∀ ra rb, OperandFaults (.multiply ra rb) s) ∧
    (∀ ia ib, s.readable ia = true → s.readable ib = true → s.fits (s.valueOf ia * s.valueOf ib) = false →
      exec (.multiply (regWord ia) (regWord ib)) s =
        .next (s.faultedBy (s.cfg.opcodes.opcode .multiply) .arithmeticOverflow 0)) ∧
    (∀ ia ib, s.readable ia = true → s.readable ib = true → s.fits (s.valueOf ia * s.valueOf ib) = true →
      s.advanceFits ia (wrap32 (s.valueOf ia * s.valueOf ib)) = true →
      exec (.multiply (regWord ia) (regWord ib)) s = .next (s.afterWrite ia (wrap32 (s.valueOf ia * s.valueOf ib))))

/-- Divide (40_alu.md R77, R83; decision D5): a zero divisor faults first, INT_MIN / -1 overflows under both policies, and every
other quotient is truncated. -/
def Obligations.DivideFollowsItsRule : Prop :=
  OpcodeMap.reference.opcode .divide = 8 ∧
  ∀ s : State,
    (∀ ra rb, OperandFaults (.divide ra rb) s) ∧
    (∀ ia ib, s.readable ia = true → s.readable ib = true → s.valueOf ib = 0 →
      exec (.divide (regWord ia) (regWord ib)) s =
        .next (s.faultedBy (s.cfg.opcodes.opcode .divide) .divideByZero (regWord ib))) ∧
    (∀ ia ib, s.readable ia = true → s.readable ib = true → s.valueOf ia = -2147483648 → s.valueOf ib = -1 →
      exec (.divide (regWord ia) (regWord ib)) s =
        .next (s.faultedBy (s.cfg.opcodes.opcode .divide) .arithmeticOverflow 0)) ∧
    (∀ ia ib, s.readable ia = true → s.readable ib = true → s.valueOf ib ≠ 0 →
      ¬ (s.valueOf ia = -2147483648 ∧ s.valueOf ib = -1) →
      s.advanceFits ia (wrap32 ((s.valueOf ia).tdiv (s.valueOf ib))) = true →
      exec (.divide (regWord ia) (regWord ib)) s = .next (s.afterWrite ia (wrap32 ((s.valueOf ia).tdiv (s.valueOf ib)))))

/-- The quotient that Divide writes is rounded toward zero: its product with the divisor is no larger in size than the dividend,
and the rest is smaller in size than the divisor (40_alu.md R77, R78; decision D5). -/
def Obligations.DivideRoundsTowardZero : Prop :=
  ∀ (s : State) (ia ib : RegIdx), s.readable ia = true → s.readable ib = true → ia ≠ s.cfg.idxPc → s.valueOf ib ≠ 0 →
    ¬ (s.valueOf ia = -2147483648 ∧ s.valueOf ib = -1) → s.plainAdvanceFits = true →
    ∃ t, exec (.divide (regWord ia) (regWord ib)) s = .next t ∧
      (t.valueOf ia * s.valueOf ib).natAbs ≤ (s.valueOf ia).natAbs ∧
      (s.valueOf ia - t.valueOf ia * s.valueOf ib).natAbs < (s.valueOf ib).natAbs

/-- Compare: the sign of the difference after `ovf` (40_alu.md R84; decision D21). -/
def Obligations.CompareFollowsItsRule : Prop :=
  OpcodeMap.reference.opcode .compare = 4 ∧
  ∀ s : State,
    (∀ ra rb, OperandFaults (.compare ra rb) s) ∧
    (∀ ia ib, s.readable ia = true → s.readable ib = true → s.fits (s.valueOf ia - s.valueOf ib) = false →
      exec (.compare (regWord ia) (regWord ib)) s =
        .next (s.faultedBy (s.cfg.opcodes.opcode .compare) .arithmeticOverflow 0)) ∧
    (∀ ia ib, s.readable ia = true → s.readable ib = true → s.fits (s.valueOf ia - s.valueOf ib) = true →
      s.advanceFits ia (wrap32 (wrap32 (s.valueOf ia - s.valueOf ib)).toInt.sign) = true →
      exec (.compare (regWord ia) (regWord ib)) s =
        .next (s.afterWrite ia (wrap32 (wrap32 (s.valueOf ia - s.valueOf ib)).toInt.sign)))

/-- When neither difference overflows, comparing two registers each way gives opposite results, each -1, 0 or 1 (40_alu.md R84). -/
def Obligations.CompareIsAntisymmetric : Prop :=
  ∀ (s : State) (ia ib : RegIdx), s.readable ia = true → s.readable ib = true → ia ≠ s.cfg.idxPc → ib ≠ s.cfg.idxPc →
    -2147483648 ≤ s.valueOf ia - s.valueOf ib → s.valueOf ia - s.valueOf ib ≤ 2147483647 →
    -2147483648 ≤ s.valueOf ib - s.valueOf ia → s.valueOf ib - s.valueOf ia ≤ 2147483647 → s.plainAdvanceFits = true →
    ∃ t u, exec (.compare (regWord ia) (regWord ib)) s = .next t ∧ exec (.compare (regWord ib) (regWord ia)) s = .next u ∧
      t.valueOf ia = - u.valueOf ib ∧ (t.valueOf ia = -1 ∨ t.valueOf ia = 0 ∨ t.valueOf ia = 1)

/-- Add and then Subtract of one pair of registers restores the first, when neither overflows (40_alu.md R81, R79). The two
registers are distinct and neither is `pc`: with one register the sum minus itself is 0, and `pc` moves between the steps. -/
def Obligations.AddThenSubtractRestores : Prop :=
  ∀ (s : State) (ia ib : RegIdx), s.readable ia = true → s.readable ib = true → ia ≠ ib → ia ≠ s.cfg.idxPc →
    ib ≠ s.cfg.idxPc → -2147483648 ≤ s.valueOf ia + s.valueOf ib → s.valueOf ia + s.valueOf ib ≤ 2147483647 →
    s.valueOf s.cfg.idxPc + 24 ≤ 2147483647 →
    ∃ t u, exec (.add (regWord ia) (regWord ib)) s = .next t ∧ exec (.subtract (regWord ia) (regWord ib)) t = .next u ∧
      ∀ r, r ≠ s.cfg.idxPc → u.x.get r = s.x.get r

/-- And is logical (40_alu.md R85). -/
def Obligations.AndFollowsItsRule : Prop :=
  OpcodeMap.reference.opcode .logicalAnd = 3 ∧
  ∀ s : State,
    (∀ ra rb, OperandFaults (.logicalAnd ra rb) s) ∧
    (∀ ia ib, s.readable ia = true → s.readable ib = true →
      s.advanceFits ia (if s.valueOf ia ≠ 0 ∧ s.valueOf ib ≠ 0 then 1 else 0) = true →
      exec (.logicalAnd (regWord ia) (regWord ib)) s =
        .next (s.afterWrite ia (if s.valueOf ia ≠ 0 ∧ s.valueOf ib ≠ 0 then 1 else 0)))

/-- Or is logical (40_alu.md R86). -/
def Obligations.OrFollowsItsRule : Prop :=
  OpcodeMap.reference.opcode .logicalOr = 21 ∧
  ∀ s : State,
    (∀ ra rb, OperandFaults (.logicalOr ra rb) s) ∧
    (∀ ia ib, s.readable ia = true → s.readable ib = true →
      s.advanceFits ia (if s.valueOf ia ≠ 0 ∨ s.valueOf ib ≠ 0 then 1 else 0) = true →
      exec (.logicalOr (regWord ia) (regWord ib)) s =
        .next (s.afterWrite ia (if s.valueOf ia ≠ 0 ∨ s.valueOf ib ≠ 0 then 1 else 0)))

/-- Move: the destination need not be readable (40_alu.md R87). -/
def Obligations.MoveFollowsItsRule : Prop :=
  OpcodeMap.reference.opcode .move = 18 ∧
  ∀ s : State,
    (∀ ra rb, OperandFaults (.move ra rb) s) ∧
    (∀ ia ib, s.readable ib = true → s.advanceFits ia (s.x.get ib) = true →
      exec (.move (regWord ia) (regWord ib)) s = .next (s.afterWrite ia (s.x.get ib)))

/-- LoadAddress: any immediate, with no memory access (40_alu.md R88). -/
def Obligations.LoadAddressFollowsItsRule : Prop :=
  OpcodeMap.reference.opcode .loadAddress = 15 ∧
  ∀ s : State,
    (∀ ra imm, OperandFaults (.loadAddress ra imm) s) ∧
    (∀ ia imm, s.advanceFits ia imm = true →
      exec (.loadAddress (regWord ia) imm) s = .next (s.afterWrite ia imm))

/-! ### Loads and stores -/

/-- LoadByte (41_memory_access.md R91). -/
def Obligations.LoadByteFollowsItsRule : Prop :=
  OpcodeMap.reference.opcode .loadByte = 16 ∧
  ∀ s : State,
    (∀ ra addr, OperandFaults (.loadByte ra addr) s) ∧
    (∀ (ia : RegIdx) (addr : Word), addr.toInt < 0 ∨ (s.cfg.memSize : Int) < addr.toInt + 1 →
      exec (.loadByte (regWord ia) addr) s = .next (s.faultedBy (s.cfg.opcodes.opcode .loadByte) .dataOutOfBounds addr)) ∧
    (∀ (ia : RegIdx) (addr : Word), 0 ≤ addr.toInt → addr.toInt + 1 ≤ s.cfg.memSize →
      s.advanceFits ia ((Memory.read s.mem addr.toNat).setWidth 32) = true →
      exec (.loadByte (regWord ia) addr) s = .next (s.afterWrite ia ((Memory.read s.mem addr.toNat).setWidth 32)))

/-- LoadWord: a little-endian halfword, zero-extended (41_memory_access.md R92). -/
def Obligations.LoadWordFollowsItsRule : Prop :=
  OpcodeMap.reference.opcode .loadWord = 17 ∧
  ∀ s : State,
    (∀ ra addr, OperandFaults (.loadWord ra addr) s) ∧
    (∀ (ia : RegIdx) (addr : Word), addr.toInt < 0 ∨ (s.cfg.memSize : Int) < addr.toInt + 2 →
      exec (.loadWord (regWord ia) addr) s = .next (s.faultedBy (s.cfg.opcodes.opcode .loadWord) .dataOutOfBounds addr)) ∧
    (∀ (ia : RegIdx) (addr v : Word), 0 ≤ addr.toInt → addr.toInt + 2 ≤ s.cfg.memSize →
      v = BitVec.ofNat 32 ((Memory.read s.mem addr.toNat).toNat + 256 * (Memory.read s.mem (addr.toNat + 1)).toNat) →
      s.advanceFits ia v = true → exec (.loadWord (regWord ia) addr) s = .next (s.afterWrite ia v))

/-- StoreByte: the register is read before the bounds are checked; only the byte at `addr` changes (41_memory_access.md R93). -/
def Obligations.StoreByteFollowsItsRule : Prop :=
  OpcodeMap.reference.opcode .storeByte = 24 ∧
  ∀ s : State,
    (∀ ra addr, OperandFaults (.storeByte ra addr) s) ∧
    (∀ (ia : RegIdx) (addr : Word), s.readable ia = true → addr.toInt < 0 ∨ (s.cfg.memSize : Int) < addr.toInt + 1 →
      exec (.storeByte (regWord ia) addr) s = .next (s.faultedBy (s.cfg.opcodes.opcode .storeByte) .dataOutOfBounds addr)) ∧
    (∀ (ia : RegIdx) (addr : Word), s.readable ia = true → 0 ≤ addr.toInt → addr.toInt + 1 ≤ s.cfg.memSize →
      s.plainAdvanceFits = true →
      ∃ t, exec (.storeByte (regWord ia) addr) s = .next t ∧ { t with mem := s.mem } = s.afterNone ∧
        ∀ a, Memory.read t.mem a = if a = addr.toNat then (s.x.get ia).setWidth 8 else Memory.read s.mem a)

/-- StoreWord: the low 16 bits, little-endian; only the two bytes from `addr` change (41_memory_access.md R94). -/
def Obligations.StoreWordFollowsItsRule : Prop :=
  OpcodeMap.reference.opcode .storeWord = 25 ∧
  ∀ s : State,
    (∀ ra addr, OperandFaults (.storeWord ra addr) s) ∧
    (∀ (ia : RegIdx) (addr : Word), s.readable ia = true → addr.toInt < 0 ∨ (s.cfg.memSize : Int) < addr.toInt + 2 →
      exec (.storeWord (regWord ia) addr) s = .next (s.faultedBy (s.cfg.opcodes.opcode .storeWord) .dataOutOfBounds addr)) ∧
    (∀ (ia : RegIdx) (addr : Word), s.readable ia = true → 0 ≤ addr.toInt → addr.toInt + 2 ≤ s.cfg.memSize →
      s.plainAdvanceFits = true →
      ∃ t, exec (.storeWord (regWord ia) addr) s = .next t ∧ { t with mem := s.mem } = s.afterNone ∧
        ∀ a, Memory.read t.mem a =
          if a = addr.toNat then (s.x.get ia).extractLsb' 0 8
          else if a = addr.toNat + 1 then (s.x.get ia).extractLsb' 8 8
          else Memory.read s.mem a)

/-- No load or store has an effect beyond its register or its bytes, other than the PC advance or its own fault
(41_memory_access.md R95). -/
def Obligations.LoadsAndStoresHaveNoOtherEffect : Prop :=
  ∀ (s t : State) (ra addr : Word),
    (exec (.loadByte ra addr) s = .next t ∨ exec (.loadWord ra addr) s = .next t →
      ((∃ op cause detail, t = s.faultedBy op cause detail) ∨ t = { s with x := t.x, written := t.written }) ∧
      ∀ r, regWord r ≠ ra → r ≠ s.cfg.idxPc → t.x.get r = s.x.get r ∧ t.written.get r = s.written.get r) ∧
    (exec (.storeByte ra addr) s = .next t ∨ exec (.storeWord ra addr) s = .next t →
      ((∃ op cause detail, t = s.faultedBy op cause detail) ∨
        t = { s with x := t.x, written := t.written, mem := t.mem }) ∧
      ∀ r, r ≠ s.cfg.idxPc → t.x.get r = s.x.get r ∧ t.written.get r = s.written.get r) ∧
    (exec (.storeByte ra addr) s = .next t → ∀ a, a ≠ addr.toNat → Memory.read t.mem a = Memory.read s.mem a) ∧
    (exec (.storeWord ra addr) s = .next t →
      ∀ a, a ≠ addr.toNat → a ≠ addr.toNat + 1 → Memory.read t.mem a = Memory.read s.mem a)

/-- A byte and a halfword that are stored are loaded back, zero-extended, from the same address, up to the last byte and the
last halfword of memory (41_memory_access.md R91 to R94; 20_memory.md R48, R54). -/
def Obligations.StoreThenLoadGivesTheLowBits : Prop :=
  ∀ (s : State) (ia ib : RegIdx) (addr : Word), s.readable ia = true → ib ≠ s.cfg.idxPc → 0 ≤ addr.toInt →
    s.valueOf s.cfg.idxPc + 24 ≤ 2147483647 →
    (addr.toInt + 1 ≤ s.cfg.memSize →
      ∃ t u, exec (.storeByte (regWord ia) addr) s = .next t ∧ exec (.loadByte (regWord ib) addr) t = .next u ∧
        u.x.get ib = BitVec.ofNat 32 ((s.x.get ia).toNat % 256)) ∧
    (addr.toInt + 2 ≤ s.cfg.memSize →
      ∃ t u, exec (.storeWord (regWord ia) addr) s = .next t ∧ exec (.loadWord (regWord ib) addr) t = .next u ∧
        u.x.get ib = BitVec.ofNat 32 ((s.x.get ia).toNat % 65536))

/-- The fetch after a StoreByte or a StoreWord reads the stored bytes: self-modifying code is seen at once (20_memory.md R57;
decision D10). -/
def Obligations.FetchSeesTheStoredBytes : Prop :=
  ∀ (s : State) (ia : RegIdx) (addr : Word), s.readable ia = true → 0 ≤ addr.toInt →
    0 ≤ s.valueOf s.cfg.idxPc → s.valueOf s.cfg.idxPc + 24 ≤ s.cfg.memSize → s.cfg.memSize ≤ 2147483647 →
    (addr.toInt + 1 ≤ s.cfg.memSize →
      ∃ t bytes, exec (.storeByte (regWord ia) addr) s = .next t ∧ t.fetch = .ok bytes ∧ bytes.length = 12 ∧
        ∀ k, k < 12 → bytes.getD k 0 =
          if s.pc.toNat + 12 + k = addr.toNat then (s.x.get ia).setWidth 8
          else Memory.read s.mem (s.pc.toNat + 12 + k)) ∧
    (addr.toInt + 2 ≤ s.cfg.memSize →
      ∃ t bytes, exec (.storeWord (regWord ia) addr) s = .next t ∧ t.fetch = .ok bytes ∧ bytes.length = 12 ∧
        ∀ k, k < 12 → bytes.getD k 0 =
          if s.pc.toNat + 12 + k = addr.toNat then (s.x.get ia).extractLsb' 0 8
          else if s.pc.toNat + 12 + k = addr.toNat + 1 then (s.x.get ia).extractLsb' 8 8
          else Memory.read s.mem (s.pc.toNat + 12 + k))

/-! ### Control transfer -/

/-- Jump: the next fetch is at the target, any i32; only `target - 12` can overflow (42_control_transfer.md R99; decisions D6,
D23, D25). -/
def Obligations.JumpFollowsItsRule : Prop :=
  ∀ (s : State) (target : Word),
    (s.transferFits target = false →
      exec (.jump target) s = .next (s.faultedBy (s.cfg.opcodes.opcode .jump) .arithmeticOverflow 0)) ∧
    (s.transferFits target = true → exec (.jump target) s = .next (s.goTo target))

/-- JumpRelative: the next fetch is at the register's value (42_control_transfer.md R100; conflict C6; decision D6). -/
def Obligations.JumpRelativeFollowsItsRule : Prop :=
  ∀ s : State,
    (∀ ra, OperandFaults (.jumpRelative ra) s) ∧
    (∀ ia, s.readable ia = true → s.transferFits (s.x.get ia) = false →
      exec (.jumpRelative (regWord ia)) s =
        .next (s.faultedBy (s.cfg.opcodes.opcode .jumpRelative) .arithmeticOverflow 0)) ∧
    (∀ ia, s.readable ia = true → s.transferFits (s.x.get ia) = true →
      exec (.jumpRelative (regWord ia)) s = .next (s.goTo (s.x.get ia)))

/-- The four conditional jumps (42_control_transfer.md R101 to R104). -/
def Obligations.ConditionalJumpsFollowTheirRules : Prop :=
  OpcodeMap.reference.opcode .compareZeroJump = 5 ∧ OpcodeMap.reference.opcode .nonZeroJump = 20 ∧
  OpcodeMap.reference.opcode .greaterThanZeroJump = 9 ∧ OpcodeMap.reference.opcode .lessThanZeroJump = 14 ∧
  ConditionalJumpRule .compareZeroJump (fun v => v = 0) ∧
  ConditionalJumpRule .nonZeroJump (fun v => v ≠ 0) ∧
  ConditionalJumpRule .greaterThanZeroJump (fun v => 0 < v) ∧
  ConditionalJumpRule .lessThanZeroJump (fun v => v < 0)

/-- A transfer leaves `pc` at `target - 12` when its execution ends, and the advance then gives the target itself
(42_control_transfer.md R98, R99; conflicts C1, C2; decision D25). -/
def Obligations.TransferStoresTheTargetLessTheBias : Prop :=
  ∀ (s : State) (target : Word), s.transferFits target = true →
    ∃ t u, transferTo s target = .ok (.continues t) ∧ t.pc = target - 12 ∧ t.advance = .ok u ∧ u.pc = target

/-- End: the status becomes HALTED and nothing else changes, `pc` included (42_control_transfer.md R105). -/
def Obligations.EndHaltsAndChangesNothingElse : Prop :=
  OpcodeMap.reference.opcode .endRun = 27 ∧
  ∀ s : State, exec .endRun s = .next { s with status := .halted }

/-- An instruction that is no transfer and does not write `pc`, and that ends neither the run nor in a hold, moves `pc` on by
12, and the advance has not overflowed (42_control_transfer.md R98, R108; decisions D23, D25). -/
def Obligations.OrdinaryInstructionsAdvanceByTwelve : Prop :=
  ∀ (i : Instr) (s t : State), isTransfer i = false → writtenWord i ≠ some (regWord s.cfg.idxPc) → s.status = .running →
    s.pending = none → exec i s = .next t → t.status = .running → t.pending = none →
    t.pc = wrap32 (s.pc.toInt + 12) ∧ s.fits (s.pc.toInt + 12) = true

/-- Every instruction that can name `pc` as its destination has the next fetch at the value it writes plus 12; where that sum is
past INT_MAX under `fault`, the advance overflows (10_state.md R32; 42_control_transfer.md R98; decisions D23, D25). The values
that Compare, And, Or and the loads write are too small to overflow. The conversions write `io`, which is not `pc`
(00_scope.md R6). -/
def Obligations.WritingPcContinuesTwelvePastTheValue : Prop :=
  ∀ (s : State) (p : RegIdx), p = s.cfg.idxPc →
    (∀ imm, PcWriteRule (.loadAddress (regWord p) imm) s imm) ∧
    (∀ ib, s.readable ib = true → PcWriteRule (.move (regWord p) (regWord ib)) s (s.x.get ib)) ∧
    (∀ imm, s.readable p = true → s.fits (s.valueOf p + imm.toInt) = true →
      PcWriteRule (.addImmediate (regWord p) imm) s (wrap32 (s.valueOf p + imm.toInt))) ∧
    (∀ ib, s.readable p = true → s.readable ib = true →
      (s.fits (s.valueOf p + s.valueOf ib) = true →
        PcWriteRule (.add (regWord p) (regWord ib)) s (wrap32 (s.valueOf p + s.valueOf ib))) ∧
      (s.fits (s.valueOf p - s.valueOf ib) = true →
        PcWriteRule (.subtract (regWord p) (regWord ib)) s (wrap32 (s.valueOf p - s.valueOf ib))) ∧
      (s.fits (s.valueOf p * s.valueOf ib) = true →
        PcWriteRule (.multiply (regWord p) (regWord ib)) s (wrap32 (s.valueOf p * s.valueOf ib))) ∧
      (s.valueOf ib ≠ 0 → ¬ (s.valueOf p = -2147483648 ∧ s.valueOf ib = -1) →
        PcWriteRule (.divide (regWord p) (regWord ib)) s (wrap32 ((s.valueOf p).tdiv (s.valueOf ib)))) ∧
      (s.fits (s.valueOf p - s.valueOf ib) = true →
        exec (.compare (regWord p) (regWord ib)) s =
          .next (s.goTo (wrap32 ((wrap32 (s.valueOf p - s.valueOf ib)).toInt.sign + 12)))) ∧
      exec (.logicalAnd (regWord p) (regWord ib)) s =
        .next (s.goTo (if s.valueOf p ≠ 0 ∧ s.valueOf ib ≠ 0 then 13 else 12)) ∧
      exec (.logicalOr (regWord p) (regWord ib)) s =
        .next (s.goTo (if s.valueOf p ≠ 0 ∨ s.valueOf ib ≠ 0 then 13 else 12))) ∧
    (∀ addr : Word, 0 ≤ addr.toInt → addr.toInt + 1 ≤ s.cfg.memSize →
      exec (.loadByte (regWord p) addr) s =
        .next (s.goTo (BitVec.ofNat 32 ((Memory.read s.mem addr.toNat).toNat + 12)))) ∧
    (∀ addr : Word, 0 ≤ addr.toInt → addr.toInt + 2 ≤ s.cfg.memSize →
      exec (.loadWord (regWord p) addr) s =
        .next (s.goTo (BitVec.ofNat 32 ((Memory.read s.mem addr.toNat).toNat +
          256 * (Memory.read s.mem (addr.toNat + 1)).toNat + 12))))

/-! ### The IO register and the ports -/

/-- ConvertASCIIToInteger: a digit character gives its value, every other value gives -1, under both policies (43_io.md R109;
decision D22). -/
def Obligations.ConvertASCIIToIntegerFollowsItsRule : Prop :=
  ∀ (s : State) (v : Int) (w : Word), v = s.valueOf Config.idxIo →
    w = (if 48 ≤ v ∧ v ≤ 57 then wrap32 (v - 48) else wrap32 (-1)) →
    OperandFaults .convertASCIIToInteger s ∧
    (s.readable Config.idxIo = true → s.fits (v - 48) = false →
      exec .convertASCIIToInteger s =
        .next (s.faultedBy (s.cfg.opcodes.opcode .convertASCIIToInteger) .arithmeticOverflow 0)) ∧
    (s.readable Config.idxIo = true → s.fits (v - 48) = true → s.advanceFits Config.idxIo w = true →
      exec .convertASCIIToInteger s = .next (s.afterWrite Config.idxIo w))

/-- ConvertIntegerToASCII: 0 to 9 give their digit characters, every other value gives 48, under both policies (43_io.md R110;
decision D22). -/
def Obligations.ConvertIntegerToASCIIFollowsItsRule : Prop :=
  ∀ (s : State) (v : Int) (w : Word), v = s.valueOf Config.idxIo →
    w = (if 0 ≤ v ∧ v ≤ 9 then wrap32 (v + 48) else wrap32 48) →
    OperandFaults .convertIntegerToASCII s ∧
    (s.readable Config.idxIo = true → s.fits (v + 48) = false →
      exec .convertIntegerToASCII s =
        .next (s.faultedBy (s.cfg.opcodes.opcode .convertIntegerToASCII) .arithmeticOverflow 0)) ∧
    (s.readable Config.idxIo = true → s.fits (v + 48) = true → s.advanceFits Config.idxIo w = true →
      exec .convertIntegerToASCII s = .next (s.afterWrite Config.idxIo w))

/-- The two conversions return every digit character to itself (43_io.md R110). -/
def Obligations.DigitCharactersSurviveBothConversions : Prop :=
  ∀ s : State, s.readable Config.idxIo = true → s.cfg.idxPc ≠ Config.idxIo → 48 ≤ s.valueOf Config.idxIo →
    s.valueOf Config.idxIo ≤ 57 → s.valueOf s.cfg.idxPc + 24 ≤ 2147483647 →
    ∃ t u, exec .convertASCIIToInteger s = .next t ∧ t.valueOf Config.idxIo = s.valueOf Config.idxIo - 48 ∧
      exec .convertIntegerToASCII t = .next u ∧ u.x.get Config.idxIo = s.x.get Config.idxIo

/-- InputASCII and InputInteger make their request and hold; the host's answer then completes them: `ok(v)` writes `io`, `fail`
emits the diagnostic and leaves `io`; without an answer no step is enabled (43_io.md R111 to R113; decision D14). That the wait
stops the model is the model's choice (log 7), and the answers' list its form (log 5). -/
def Obligations.InputInstructionsHoldAndComplete : Prop :=
  ∀ (i : Instr) (kind : InputKind) (s : State),
    (i = .inputASCII ∧ kind = .char) ∨ (i = .inputInteger ∧ kind = .int) → s.status = .running →
    ∃ h, exec i s = .next h ∧ h = { s with pending := some kind } ∧
      (s.answers = [] → step h = .fault (.inputUnanswered kind)) ∧
      (∀ v rest, s.answers = .ok v :: rest → s.advanceFits Config.idxIo v = true →
        step h = .next { s.afterWrite Config.idxIo v with pending := none, answers := rest }) ∧
      (∀ rest, s.answers = .fail :: rest → s.plainAdvanceFits = true →
        step h = .next { s.afterNone with out := s.out ++ [.diag kind], pending := none, answers := rest })

/-- OutputASCII emits the low byte of `io` (43_io.md R114). -/
def Obligations.OutputASCIIFollowsItsRule : Prop :=
  OpcodeMap.reference.opcode .outputASCII = 22 ∧
  ∀ s : State,
    OperandFaults .outputASCII s ∧
    (s.readable Config.idxIo = true → s.plainAdvanceFits = true →
      exec .outputASCII s = .next { s.afterNone with out := s.out ++ [.byte ((s.x.get Config.idxIo).setWidth 8)] })

/-- OutputInteger emits `io` (43_io.md R115; its printed form is the host's, 00_scope.md R5 (b)). -/
def Obligations.OutputIntegerFollowsItsRule : Prop :=
  ∀ s : State,
    OperandFaults .outputInteger s ∧
    (s.readable Config.idxIo = true → s.plainAdvanceFits = true →
      exec .outputInteger s = .next { s.afterNone with out := s.out ++ [.int (s.x.get Config.idxIo)] })

/-! ### Whole-machine frames and faults -/

/-- No instruction writes a register other than `pc` and the one the table of 10_state.md R28 names for it (R36). -/
def Obligations.OnlyTheNamedRegisterIsWritten : Prop :=
  ∀ (i : Instr) (s t : State) (r : RegIdx), exec i s = .next t → r ≠ s.cfg.idxPc → writtenWord i ≠ some (regWord r) →
    t.x.get r = s.x.get r ∧ t.written.get r = s.written.get r

/-- No instruction changes a byte of memory outside the range it stores to; one that stores nothing changes none
(10_state.md R36; 41_memory_access.md R95). -/
def Obligations.OnlyTheStoredBytesChange : Prop :=
  ∀ (i : Instr) (s t : State) (a : Nat), exec i s = .next t →
    (∀ addr n, storedRange i = some (addr, n) → ¬ (addr.toNat ≤ a ∧ a < addr.toNat + n)) →
    Memory.read t.mem a = Memory.read s.mem a

/-- What an instruction leaves of the control state: only output instructions emit, only input instructions make a request, only
End halts, and the fault record changes only with a fault (10_state.md R36, R37; 42_control_transfer.md R106). -/
def Obligations.ControlStateFrame : Prop :=
  ∀ (i : Instr) (s t : State), exec i s = .next t →
    (i ≠ .outputASCII → i ≠ .outputInteger → t.out = s.out) ∧
    (i ≠ .inputASCII → i ≠ .inputInteger → t.pending = s.pending) ∧
    (i ≠ .endRun → t.status = s.status ∨ t.status = .faulted) ∧
    (t.status ≠ .faulted → t.fault = s.fault) ∧
    t.commands = s.commands ∧ t.answers = s.answers ∧ t.freeDraws = s.freeDraws

/-- An instruction that faults changes nothing but the status and the fault record, which holds the address of its record, its
opcode, and a cause that the table of R121 lets it raise (60_exceptions.md R121, R124; decision D11). -/
def Obligations.FaultsArePreciseAndOfTheNamedCauses : Prop :=
  ∀ (i : Instr) (s t : State), s.status = .running → exec i s = .next t → t.status = .faulted →
    ∃ cause detail, cause ∈ raisedCauses i ∧ (cause = .arithmeticOverflow → detail = 0) ∧
      t = s.faultedBy (s.cfg.opcodes.opcode i.mnemonic) cause detail

/-- Under `REG_RESET = zero` no instruction raises UninitialisedRegister, and under `OVERFLOW_POLICY = wrap` only Divide raises
ArithmeticOverflow (60_exceptions.md R122; decisions D3, D4). -/
def Obligations.ParametersRemoveTheirCauses : Prop :=
  ∀ (i : Instr) (s t : State), s.status = .running → exec i s = .next t → t.status = .faulted →
    (s.cfg.regReset = .zero → t.fault.cause ≠ .uninitialisedRegister) ∧
    (s.cfg.overflow = .wrap → t.fault.cause = .arithmeticOverflow → ∃ ra rb, i = .divide ra rb)

/-! ### Reset, load, run and the host's view -/

/-- The state after reset: LOADED with the empty image, nothing written, in the reference configuration (10_state.md R41;
70_reset_and_hazards.md R142, R143). That reset is this state and not EMPTY is the model's reading (log 2). Nothing is said of the
register values, which R41 leaves unspecified and the model chose (log 3). -/
def Obligations.ResetIsTheLoadedEmptyImage : Prop :=
  State.reset.status = .loaded ∧ State.reset.pending = none ∧ State.reset.fault = FaultRecord.zero ∧ State.reset.out = [] ∧
  State.reset.cfg = Config.reference ∧ (∀ r, State.reset.written.get r = false) ∧
  (∀ a, Memory.read State.reset.mem a = 0) ∧
  ∀ x, { State.reset.load [] with x := x } = { State.reset with x := x }

/-- `LOAD` of an image that fits builds memory from it, zero-fills the rest and clears the core (70_reset_and_hazards.md R143;
10_state.md R30, R41; decisions D3, D17). The values of the registers under `REG_RESET = unwritten` are left out: the model
chose them (log 3). -/
def Obligations.LoadBuildsMemoryFromTheImage : Prop :=
  ∀ (s : State) (image : List Byte) (rest : List Command), s.status ≠ .running → s.commands = .load image :: rest →
    image.length ≤ s.cfg.memSize →
    ∃ t, step s = .next t ∧ t.status = .loaded ∧ t.pending = none ∧ t.fault = FaultRecord.zero ∧ t.out = [] ∧
      t.cfg = s.cfg ∧ t.commands = rest ∧ (∀ a, Memory.read t.mem a = image.getD a 0) ∧
      (∀ r, t.written.get r = decide (s.cfg.regReset = .zero)) ∧
      (s.cfg.regReset = .zero → ∀ r, t.x.get r = 0)

/-- `LOAD` of an image longer than memory sets LOAD_ERROR and records the length (70_reset_and_hazards.md R144; decision D11).
Nothing is said of registers and memory, which are free values (log 9). -/
def Obligations.OversizeImageIsALoadError : Prop :=
  ∀ (s : State) (image : List Byte) (rest : List Command), s.status ≠ .running → s.commands = .load image :: rest →
    s.cfg.memSize < image.length →
    ∃ t, step s = .next t ∧ t.status = .loadError ∧ t.cfg = s.cfg ∧ t.commands = rest ∧
      t.fault = { cause := .loadError, pc := 0, opcode := 0, detail := BitVec.ofNat 32 (min image.length 2147483647) }

/-- `RUN(start)` in LOADED writes `pc`, sets its written bit and starts the core; the start is not checked
(70_reset_and_hazards.md R145; decisions D18, D19). -/
def Obligations.RunStartsALoadedCore : Prop :=
  ∀ (s : State) (start : Word) (rest : List Command), s.status = .loaded → s.commands = .run start :: rest →
    step s = .next { s.goTo start with status := .running, pending := none, commands := rest }

/-- `RUN` in a status other than LOADED, with the core not running, changes nothing (70_reset_and_hazards.md R145, R146; decision
D19). That it is used up is the model's choice (log 16). -/
def Obligations.RunIsRefusedUnlessLoaded : Prop :=
  ∀ (s : State) (start : Word) (rest : List Command), s.status ≠ .loaded → s.status ≠ .running →
    s.commands = .run start :: rest → step s = .next { s with commands := rest }

/-- The host sees the status always, registers, written bits and memory only when the core is not running (and not in EMPTY,
R141), and the fault record exactly when the core is not running (00_scope.md R14; 70_reset_and_hazards.md R141, R146; decision
D16). How R14 and R146 are read together is the model's reading (log 22); in EMPTY the record's value is unspecified
(10_state.md R41). -/
def Obligations.HostReadsNoRegisterOfARunningCore : Prop :=
  ∀ s : State, s.inspect.status = s.status ∧
    (s.status = .running ∨ s.status = .empty →
      s.inspect.registers = none ∧ s.inspect.writtenBits = none ∧ s.inspect.memory = none) ∧
    (s.status ≠ .running → s.status ≠ .empty →
      s.inspect.registers = some s.x ∧ s.inspect.writtenBits = some s.written ∧ s.inspect.memory = some s.mem) ∧
    (s.status = .running → s.inspect.faultRecord = none) ∧
    (s.status ≠ .running → s.inspect.faultRecord = some s.fault)

/-! ### The invariant -/

/-- The state after reset meets the invariant. -/
def Obligations.ResetMeetsTheCoreInvariant : Prop := State.reset.Inv

/-- Every step keeps the invariant, from every state that meets it: legal parameters, canonical memory inside the array, a pending
request only in a run and only with its record in memory, the written bits of R30, and the fault record of R35 and R126. -/
def Obligations.EveryStepKeepsTheCoreInvariant : Prop :=
  ∀ s t : State, s.Inv → step s = .next t → t.Inv
end

