-- ==== Sys2Proof/Laws/Decode.lean ====
section
/-! SUPPORT. The laws of the byte order and of the opcode lookup, which the encoding claims rest on. -/

namespace Sys2Proof

@[simp] theorem leBytes_length (n v : Nat) : (leBytes n v).length = n := by
  induction n generalizing v with
  | zero => rfl
  | succ n ih => simp [leBytes, ih]

/-- The little-endian bytes of a number give back its low part. -/
theorem leValue_leBytes (n v : Nat) : leValue (leBytes n v) = v % 256 ^ n := by
  induction n generalizing v with
  | zero => simp [leBytes, leValue, Nat.mod_one]
  | succ n ih =>
    have h : (256 : Nat) ^ (n + 1) = 256 * 256 ^ n := by ring
    rw [leBytes, leValue, ih, BitVec.toNat_ofNat, h, Nat.mod_mul]

theorem leValue_append (l m : List Byte) : leValue (l ++ m) = leValue l + 256 ^ l.length * leValue m := by
  induction l with
  | nil => simp [leValue]
  | cons b l ih =>
    rw [List.cons_append, leValue, leValue, ih, List.length_cons, pow_succ]
    ring

@[simp] theorem record_toBytes_length (r : Record) : r.toBytes.length = 12 := by
  simp [Record.toBytes]

/-- The bytes of a record give back the record (30_encoding.md R63). -/
theorem ofBytes_toBytes (r : Record) : Record.ofBytes r.toBytes = r := by
  have ho := r.op.isLt
  have ha := r.a.isLt
  have hb := r.b.isLt
  have hv : leValue r.toBytes = r.op.toNat + 2 ^ 32 * r.a.toNat + 2 ^ 64 * r.b.toNat := by
    rw [Record.toBytes, leValue_append, leValue_append, leValue_leBytes, leValue_leBytes, leValue_leBytes]
    simp only [List.length_append, leBytes_length]
    rw [Nat.mod_eq_of_lt (by omega), Nat.mod_eq_of_lt (by omega), Nat.mod_eq_of_lt (by omega)]
    norm_num
  cases r
  simp only [Record.ofBytes, Record.ofBits, hv, Record.mk.injEq]
  refine ⟨?_, ?_, ?_⟩ <;>
  · apply BitVec.eq_of_toNat_eq
    simp only [BitVec.extractLsb'_toNat, BitVec.toNat_ofNat, Nat.shiftRight_eq_div_pow]
    omega

theorem mnemonic_mem_all (m : Mnemonic) : m ∈ Mnemonic.all := by cases m <;> decide

theorem row_injective {m n : Mnemonic} (h : m.row = n.row) : m = n := by
  revert h
  cases m <;> cases n <;> decide

/-- Under an injective map two mnemonics with one opcode value are one mnemonic (30_encoding.md R67). -/
theorem opcode_injective {map : OpcodeMap} (h : map.injective = true) {m n : Mnemonic}
    (he : map.opcode m = map.opcode n) : m = n := by
  have hn : map.toList.Nodup := by simpa [OpcodeMap.injective] using h
  apply row_injective
  have hm : m.row.val < map.toList.length := by simp
  have hk : n.row.val < map.toList.length := by simp
  apply Fin.ext
  apply (List.Nodup.getElem_inj_iff hn (hi := hm) (hj := hk)).1
  simpa [OpcodeMap.opcode, Vector.get_eq_getElem] using he

/-- The lookup answers only a mnemonic with that opcode value. -/
theorem opcode_of_mnemonicOf {map : OpcodeMap} {op : Word} {m : Mnemonic} (h : map.mnemonicOf op = some m) :
    map.opcode m = op := by
  simpa using List.find?_some h

/-- The lookup answers nothing exactly when no mnemonic has the opcode value (30_encoding.md R69). -/
theorem mnemonicOf_eq_none {map : OpcodeMap} {op : Word} :
    map.mnemonicOf op = none ↔ ∀ m, map.opcode m ≠ op := by
  unfold OpcodeMap.mnemonicOf
  rw [List.find?_eq_none]
  constructor
  · intro h m
    simpa using h m (mnemonic_mem_all m)
  · intro h m _
    simpa using h m

/-- Under an injective map the lookup of a mnemonic's own opcode value answers it. -/
theorem mnemonicOf_opcode {map : OpcodeMap} (h : map.injective = true) (m : Mnemonic) :
    map.mnemonicOf (map.opcode m) = some m := by
  cases hf : map.mnemonicOf (map.opcode m) with
  | none => exact absurd rfl (mnemonicOf_eq_none.1 hf m)
  | some n => rw [opcode_injective h (opcode_of_mnemonicOf hf)]

/-- Decoding 12 bytes is decoding their record. -/
theorem decode_of_length {map : OpcodeMap} {bytes : List Byte} (h : bytes.length = 12) :
    decode map bytes =
      match decodeRecord map (Record.ofBytes bytes) with
      | some i => .ok i
      | none => .error (.unknownOpcode (Record.ofBytes bytes).op) := by
  unfold decode
  exact if_pos h

end Sys2Proof
end

