-- ==== Sys2Proof/Laws/State.lean ====
section
/-! SUPPORT. One lemma per field per update of the state, so that no later proof unfolds a record update. -/

namespace Sys2Proof.Machine

/-! ### writeReg -/

@[simp] theorem writeReg_mem (s : State) (r : RegIdx) (v : Word) : (s.writeReg r v).mem = s.mem := rfl
@[simp] theorem writeReg_status (s : State) (r : RegIdx) (v : Word) : (s.writeReg r v).status = s.status := rfl
@[simp] theorem writeReg_pending (s : State) (r : RegIdx) (v : Word) : (s.writeReg r v).pending = s.pending := rfl
@[simp] theorem writeReg_fault (s : State) (r : RegIdx) (v : Word) : (s.writeReg r v).fault = s.fault := rfl
@[simp] theorem writeReg_out (s : State) (r : RegIdx) (v : Word) : (s.writeReg r v).out = s.out := rfl
@[simp] theorem writeReg_cfg (s : State) (r : RegIdx) (v : Word) : (s.writeReg r v).cfg = s.cfg := rfl
@[simp] theorem writeReg_commands (s : State) (r : RegIdx) (v : Word) : (s.writeReg r v).commands = s.commands := rfl
@[simp] theorem writeReg_answers (s : State) (r : RegIdx) (v : Word) : (s.writeReg r v).answers = s.answers := rfl
@[simp] theorem writeReg_freeDraws (s : State) (r : RegIdx) (v : Word) : (s.writeReg r v).freeDraws = s.freeDraws := rfl

@[simp] theorem writeReg_get (s : State) (r q : RegIdx) (v : Word) :
    (s.writeReg r v).x.get q = if q = r then v else s.x.get q := by
  simp [State.writeReg, Vector.get_eq_getElem, Vector.getElem_set, Fin.ext_iff, eq_comm]

@[simp] theorem writeReg_written (s : State) (r q : RegIdx) (v : Word) :
    (s.writeReg r v).written.get q = if q = r then true else s.written.get q := by
  simp [State.writeReg, Vector.get_eq_getElem, Vector.getElem_set, Fin.ext_iff, eq_comm]

@[simp] theorem writeReg_pc (s : State) (r : RegIdx) (v : Word) :
    (s.writeReg r v).pc = if s.cfg.idxPc = r then v else s.pc := by
  simp [State.pc]

/-! ### emit -/

@[simp] theorem emit_x (s : State) (e : Event) : (s.emit e).x = s.x := rfl
@[simp] theorem emit_written (s : State) (e : Event) : (s.emit e).written = s.written := rfl
@[simp] theorem emit_mem (s : State) (e : Event) : (s.emit e).mem = s.mem := rfl
@[simp] theorem emit_status (s : State) (e : Event) : (s.emit e).status = s.status := rfl
@[simp] theorem emit_pending (s : State) (e : Event) : (s.emit e).pending = s.pending := rfl
@[simp] theorem emit_fault (s : State) (e : Event) : (s.emit e).fault = s.fault := rfl
@[simp] theorem emit_out (s : State) (e : Event) : (s.emit e).out = s.out ++ [e] := rfl
@[simp] theorem emit_cfg (s : State) (e : Event) : (s.emit e).cfg = s.cfg := rfl
@[simp] theorem emit_commands (s : State) (e : Event) : (s.emit e).commands = s.commands := rfl
@[simp] theorem emit_answers (s : State) (e : Event) : (s.emit e).answers = s.answers := rfl
@[simp] theorem emit_freeDraws (s : State) (e : Event) : (s.emit e).freeDraws = s.freeDraws := rfl
@[simp] theorem emit_pc (s : State) (e : Event) : (s.emit e).pc = s.pc := rfl

/-! ### takeFault -/

@[simp] theorem takeFault_x (s : State) (op : Word) (r : Raise) : (s.takeFault op r).x = s.x := rfl
@[simp] theorem takeFault_written (s : State) (op : Word) (r : Raise) : (s.takeFault op r).written = s.written := rfl
@[simp] theorem takeFault_mem (s : State) (op : Word) (r : Raise) : (s.takeFault op r).mem = s.mem := rfl
@[simp] theorem takeFault_status (s : State) (op : Word) (r : Raise) : (s.takeFault op r).status = .faulted := rfl
@[simp] theorem takeFault_pending (s : State) (op : Word) (r : Raise) : (s.takeFault op r).pending = s.pending := rfl
@[simp] theorem takeFault_fault (s : State) (op : Word) (r : Raise) :
    (s.takeFault op r).fault = { cause := r.cause, pc := s.pc, opcode := op, detail := r.detail } := rfl
@[simp] theorem takeFault_out (s : State) (op : Word) (r : Raise) : (s.takeFault op r).out = s.out := rfl
@[simp] theorem takeFault_cfg (s : State) (op : Word) (r : Raise) : (s.takeFault op r).cfg = s.cfg := rfl
@[simp] theorem takeFault_commands (s : State) (op : Word) (r : Raise) : (s.takeFault op r).commands = s.commands := rfl
@[simp] theorem takeFault_answers (s : State) (op : Word) (r : Raise) : (s.takeFault op r).answers = s.answers := rfl
@[simp] theorem takeFault_freeDraws (s : State) (op : Word) (r : Raise) : (s.takeFault op r).freeDraws = s.freeDraws := rfl
@[simp] theorem takeFault_pc (s : State) (op : Word) (r : Raise) : (s.takeFault op r).pc = s.pc := rfl

/-! ### loadImage and rejectImage -/

@[simp] theorem loadImage_x (s : State) (l : List Byte) : (s.loadImage l).x = registersAfterLoad := rfl
@[simp] theorem loadImage_written (s : State) (l : List Byte) :
    (s.loadImage l).written = writtenAfterLoad s.cfg.regReset := rfl
@[simp] theorem loadImage_mem (s : State) (l : List Byte) : (s.loadImage l).mem = Memory.ofImage l := rfl
@[simp] theorem loadImage_status (s : State) (l : List Byte) : (s.loadImage l).status = .loaded := rfl
@[simp] theorem loadImage_pending (s : State) (l : List Byte) : (s.loadImage l).pending = none := rfl
@[simp] theorem loadImage_fault (s : State) (l : List Byte) : (s.loadImage l).fault = FaultRecord.zero := rfl
@[simp] theorem loadImage_out (s : State) (l : List Byte) : (s.loadImage l).out = [] := rfl
@[simp] theorem loadImage_cfg (s : State) (l : List Byte) : (s.loadImage l).cfg = s.cfg := rfl
@[simp] theorem loadImage_commands (s : State) (l : List Byte) : (s.loadImage l).commands = s.commands := rfl
@[simp] theorem loadImage_answers (s : State) (l : List Byte) : (s.loadImage l).answers = s.answers := rfl
@[simp] theorem loadImage_freeDraws (s : State) (l : List Byte) : (s.loadImage l).freeDraws = s.freeDraws := rfl

@[simp] theorem rejectImage_written (s : State) (l : List Byte) : (s.rejectImage l).written = s.written := rfl
@[simp] theorem rejectImage_status (s : State) (l : List Byte) : (s.rejectImage l).status = .loadError := rfl
@[simp] theorem rejectImage_pending (s : State) (l : List Byte) : (s.rejectImage l).pending = s.pending := rfl
@[simp] theorem rejectImage_fault (s : State) (l : List Byte) :
    (s.rejectImage l).fault = { cause := .loadError, pc := 0, opcode := 0, detail := saturatedLength l.length } := rfl
@[simp] theorem rejectImage_out (s : State) (l : List Byte) : (s.rejectImage l).out = s.out := rfl
@[simp] theorem rejectImage_cfg (s : State) (l : List Byte) : (s.rejectImage l).cfg = s.cfg := rfl
@[simp] theorem rejectImage_commands (s : State) (l : List Byte) : (s.rejectImage l).commands = s.commands := rfl
@[simp] theorem rejectImage_answers (s : State) (l : List Byte) : (s.rejectImage l).answers = s.answers := rfl
@[simp] theorem rejectImage_freeDraws (s : State) (l : List Byte) : (s.rejectImage l).freeDraws = s.freeDraws + 1 := rfl
@[simp] theorem rejectImage_mem (s : State) (l : List Byte) :
    (s.rejectImage l).mem = Memory.ofCells s.cfg.memSize (Config.unspecifiedMemory s.freeDraws) := rfl

/-! ### Two states are equal when their fields are, the registers read one by one -/

theorem vector_eq_of_get {α : Type} {n : Nat} {v w : Vector α n} (h : ∀ i : Fin n, v.get i = w.get i) : v = w := by
  ext i hi
  simpa [Vector.get_eq_getElem] using h ⟨i, hi⟩

@[simp] theorem vector_get_ofFn {α : Type} {n : Nat} (f : Fin n → α) (i : Fin n) : (Vector.ofFn f).get i = f i := by
  simp [Vector.get_eq_getElem]

@[simp] theorem vector_get_replicate {α : Type} {n : Nat} (a : α) (i : Fin n) : (Vector.replicate n a).get i = a := by
  simp [Vector.get_eq_getElem]

theorem State.eq_of_fields {s t : State} (hx : ∀ r, s.x.get r = t.x.get r) (hw : ∀ r, s.written.get r = t.written.get r)
    (hm : s.mem = t.mem) (hs : s.status = t.status) (hp : s.pending = t.pending) (hf : s.fault = t.fault)
    (ho : s.out = t.out) (hc : s.cfg = t.cfg) (hk : s.commands = t.commands) (ha : s.answers = t.answers)
    (hd : s.freeDraws = t.freeDraws) : s = t := by
  cases s
  cases t
  have h1 := vector_eq_of_get hx
  have h2 := vector_eq_of_get hw
  simp_all

end Sys2Proof.Machine
end

