-- ==== Sys2Proof/Laws/Memory.lean ====
section
/-! SUPPORT. The laws of memory: read after write, and every operation keeps the canonical form and the bounds of the
array. -/

namespace Sys2Proof.Machine

/-! ### Read after write -/

theorem read_eq_unlisted {m : Memory} {a : Nat} (h : ∀ c ∈ m, c.1 ≠ a) : Memory.read m a = Memory.unlisted := by
  induction m with
  | nil => rfl
  | cons c m ih =>
    have hc := h c (by simp)
    obtain ⟨k, b⟩ := c
    simp only [Memory.read, if_neg hc]
    exact ih (fun d hd => h d (by simp [hd]))

theorem read_insert_same {m : Memory} {a : Nat} (v : Byte) (h : ∀ c ∈ m, c.1 ≠ a) :
    Memory.read (Memory.insert m a v) a = v := by
  induction m with
  | nil => simp [Memory.insert, Memory.read]
  | cons c m ih =>
    obtain ⟨k, b⟩ := c
    have hk : k ≠ a := h (k, b) (by simp)
    by_cases hlt : a < k
    · simp [Memory.insert, hlt, Memory.read]
    · simp only [Memory.insert, if_neg hlt, Memory.read, if_neg hk]
      exact ih (fun d hd => h d (by simp [hd]))

theorem read_insert_other {m : Memory} {a a' : Nat} (v : Byte) (h : a' ≠ a) :
    Memory.read (Memory.insert m a v) a' = Memory.read m a' := by
  induction m with
  | nil => simp [Memory.insert, Memory.read, h.symm]
  | cons c m ih =>
    obtain ⟨k, b⟩ := c
    by_cases hlt : a < k
    · simp [Memory.insert, hlt, Memory.read, h.symm]
    · simp only [Memory.insert, if_neg hlt, Memory.read, ih]

theorem mem_erase {m : Memory} {a : Nat} {c : Host.Cell} (h : c ∈ Memory.erase m a) : c ∈ m ∧ c.1 ≠ a := by
  simpa [Memory.erase] using h

theorem read_erase_other {m : Memory} {a a' : Nat} (h : a' ≠ a) :
    Memory.read (Memory.erase m a) a' = Memory.read m a' := by
  unfold Memory.erase
  induction m with
  | nil => rfl
  | cons c m ih =>
    obtain ⟨k, b⟩ := c
    by_cases hk : k = a
    · subst hk
      simpa [Memory.read, h.symm] using ih
    · simpa [hk, Memory.read] using by rw [← ih]; simp

/-- One write changes the read of one address and of no other. -/
theorem read_write (m : Memory) (a a' : Nat) (v : Byte) :
    Memory.read (Memory.write m a v) a' = if a' = a then v else Memory.read m a' := by
  have hf : ∀ c ∈ Memory.erase m a, c.1 ≠ a := fun c hc => (mem_erase hc).2
  unfold Memory.write
  by_cases h : a' = a
  · subst h
    split
    · next hv => rw [read_eq_unlisted hf, if_pos rfl, hv]
    · rw [read_insert_same v hf, if_pos rfl]
  · split
    · exact read_erase_other h
    · rw [read_insert_other v h, read_erase_other h]

/-- Writing bytes from an address upward changes exactly the reads of those addresses. -/
theorem read_writeBytes (m : Memory) (a a' : Nat) (bs : List Byte) :
    Memory.read (Memory.writeBytes m a bs) a' =
      if a ≤ a' ∧ a' < a + bs.length then bs.getD (a' - a) 0 else Memory.read m a' := by
  induction bs generalizing m a with
  | nil =>
    have : ¬ (a ≤ a' ∧ a' < a + ([] : List Byte).length) := by simp
    rw [Memory.writeBytes, if_neg this]
  | cons b bs ih =>
    rw [Memory.writeBytes, ih, read_write]
    by_cases h0 : a' = a
    · subst h0; simp
    · by_cases h1 : a + 1 ≤ a' ∧ a' < a + 1 + bs.length
      · have h2 : a ≤ a' ∧ a' < a + (b :: bs).length := by simp; omega
        rw [if_pos h1, if_pos h2]
        have : a' - a = (a' - (a + 1)) + 1 := by omega
        rw [this, List.getD_cons_succ]
      · have h2 : ¬ (a ≤ a' ∧ a' < a + (b :: bs).length) := by simp; omega
        rw [if_neg h1, if_neg h2, if_neg h0]

@[simp] theorem readBytes_length (m : Memory) (a n : Nat) : (Memory.readBytes m a n).length = n := by
  induction n generalizing a with
  | zero => rfl
  | succ n ih => simp [Memory.readBytes, ih]

theorem readBytes_getD (m : Memory) (a n i : Nat) (h : i < n) :
    (Memory.readBytes m a n).getD i 0 = Memory.read m (a + i) := by
  induction n generalizing a i with
  | zero => omega
  | succ n ih =>
    cases i with
    | zero => simp [Memory.readBytes]
    | succ i =>
      rw [Memory.readBytes, List.getD_cons_succ, ih (a + 1) i (by omega)]
      congr 1; omega

theorem readBytes_congr {m m' : Memory} {a n : Nat} (h : ∀ i, i < n → Memory.read m (a + i) = Memory.read m' (a + i)) :
    Memory.readBytes m a n = Memory.readBytes m' a n := by
  induction n generalizing a with
  | zero => rfl
  | succ n ih =>
    rw [Memory.readBytes, Memory.readBytes, ih (fun i hi => by simpa [Nat.add_assoc, Nat.add_comm 1] using h (i + 1) (by omega))]
    congr 1
    simpa using h 0 (by omega)

/-- The loaded memory reads as the image, and 0 above it (70_reset_and_hazards.md R143). -/
theorem read_ofImage (image : List Byte) (a : Nat) : Memory.read (Memory.ofImage image) a = image.getD a 0 := by
  unfold Memory.ofImage
  rw [read_writeBytes]
  by_cases h : a < image.length
  · simp [h]
  · simp [h, Memory.read, List.getD_eq_getElem?_getD]

/-! ### The canonical form is kept -/

theorem wf_iff (m : Memory) :
    m.wf = true ↔ m.Pairwise (fun c d => c.1 < d.1) ∧ ∀ c ∈ m, c.2 ≠ Memory.unlisted := by
  simp [Memory.wf]

theorem mem_insert {m : Memory} {a : Nat} {v : Byte} {c : Host.Cell} (h : c ∈ Memory.insert m a v) : c = (a, v) ∨ c ∈ m := by
  induction m with
  | nil => simpa [Memory.insert] using h
  | cons d m ih =>
    obtain ⟨k, b⟩ := d
    by_cases hlt : a < k
    · simpa [Memory.insert, hlt] using h
    · rw [Memory.insert, if_neg hlt] at h
      rcases List.mem_cons.mp h with h | h
      · exact .inr (by simp [h])
      · rcases ih h with h | h
        · exact .inl h
        · exact .inr (by simp [h])

theorem insert_pairwise {m : Memory} {a : Nat} {v : Byte} (hp : m.Pairwise (fun c d => c.1 < d.1))
    (hne : ∀ c ∈ m, c.1 ≠ a) : (Memory.insert m a v).Pairwise (fun c d => c.1 < d.1) := by
  induction m with
  | nil => simp [Memory.insert]
  | cons d m ih =>
    obtain ⟨k, b⟩ := d
    rw [List.pairwise_cons] at hp
    have hk : k ≠ a := hne (k, b) (by simp)
    by_cases hlt : a < k
    · simp only [Memory.insert, if_pos hlt, List.pairwise_cons]
      refine ⟨fun c hc => ?_, hp.1, hp.2⟩
      rcases List.mem_cons.mp hc with rfl | hc
      · exact hlt
      · exact Nat.lt_trans hlt (hp.1 c hc)
    · simp only [Memory.insert, if_neg hlt, List.pairwise_cons]
      refine ⟨fun c hc => ?_, ih hp.2 (fun c hc => hne c (by simp [hc]))⟩
      rcases mem_insert hc with rfl | hc
      · simp only; omega
      · exact hp.1 c hc

/-- One write keeps the canonical form. -/
theorem write_wf {m : Memory} (h : m.wf = true) (a : Nat) (v : Byte) : (Memory.write m a v).wf = true := by
  rw [wf_iff] at h ⊢
  have hp : (Memory.erase m a).Pairwise (fun c d => c.1 < d.1) := h.1.filter _
  have hv : ∀ c ∈ Memory.erase m a, c.2 ≠ Memory.unlisted := fun c hc => h.2 c (mem_erase hc).1
  unfold Memory.write
  split
  · exact ⟨hp, hv⟩
  · next hne =>
    refine ⟨insert_pairwise hp (fun c hc => (mem_erase hc).2), fun c hc => ?_⟩
    rcases mem_insert hc with rfl | hc
    · exact hne
    · exact hv c hc

/-- Writing bytes keeps the canonical form. -/
theorem writeBytes_wf {m : Memory} (h : m.wf = true) (a : Nat) (bs : List Byte) : (Memory.writeBytes m a bs).wf = true := by
  induction bs generalizing m a with
  | nil => exact h
  | cons b bs ih => exact ih (write_wf h a b) (a + 1)

/-- The loaded memory is canonical. -/
theorem ofImage_wf (image : List Byte) : (Memory.ofImage image).wf = true := writeBytes_wf (by decide) 0 image

/-- Memory built from any pairs is canonical. -/
theorem ofCells_wf (size : Nat) (cells : List Host.Cell) : (Memory.ofCells size cells).wf = true := by
  induction cells with
  | nil => rfl
  | cons c cs ih =>
    unfold Memory.ofCells
    split
    · exact write_wf ih _ _
    · exact ih

/-- The reset memory is canonical. -/
theorem reset_mem_wf : State.reset.mem.wf = true := by decide

/-! ### The bounds of the array are kept -/

theorem write_bounded {m : Memory} {size a : Nat} (h : ∀ c ∈ m, c.1 < size) (ha : a < size) (v : Byte) :
    ∀ c ∈ Memory.write m a v, c.1 < size := by
  intro c hc
  unfold Memory.write at hc
  split at hc
  · exact h c (mem_erase hc).1
  · rcases mem_insert hc with rfl | hc
    · exact ha
    · exact h c (mem_erase hc).1

theorem writeBytes_bounded {m : Memory} {size a : Nat} {bs : List Byte} (h : ∀ c ∈ m, c.1 < size)
    (ha : a + bs.length ≤ size) : ∀ c ∈ Memory.writeBytes m a bs, c.1 < size := by
  induction bs generalizing m a with
  | nil => exact h
  | cons b bs ih =>
    simp at ha
    exact ih (write_bounded h (by omega) b) (by omega)

theorem ofImage_bounded {image : List Byte} {size : Nat} (h : image.length ≤ size) :
    ∀ c ∈ Memory.ofImage image, c.1 < size :=
  writeBytes_bounded (by simp) (by omega)

theorem ofCells_bounded (size : Nat) (cells : List Host.Cell) : ∀ c ∈ Memory.ofCells size cells, c.1 < size := by
  induction cells with
  | nil => simp [Memory.ofCells]
  | cons c cs ih =>
    unfold Memory.ofCells
    split
    · next h => exact write_bounded ih h _
    · exact ih

end Sys2Proof.Machine
end

