-- ==== Sys2Proof/Laws/Ops.lean ====
section
/-! SUPPORT. One lemma per shared operation that says what it can do; later proofs cite these and do not unfold the
operations. -/

namespace Sys2Proof.Machine

/-! ### The two ends of a pseudocode line -/

@[simp] theorem ok_bind {α β : Type} (a : α) (f : α → Except Raise β) : (Except.ok a >>= f) = f a := rfl
@[simp] theorem error_bind {α β : Type} (r : Raise) (f : α → Except Raise β) :
    ((Except.error r : Except Raise α) >>= f) = Except.error r := rfl

/-! ### Register operands -/

theorem regWord_toNat (r : RegIdx) : (regWord r).toNat = r.val := by
  simp [regWord]
  omega

theorem validRegWord_iff_toNat (w : Word) : validRegWord w = true ↔ w.toNat < 13 := by
  simp only [validRegWord, decide_eq_true_eq, BitVec.toInt_eq_toNat_cond]
  have := w.isLt
  split <;> omega

theorem validRegWord_iff (w : Word) : validRegWord w = true ↔ ∃ r : RegIdx, w = regWord r := by
  rw [validRegWord_iff_toNat]
  constructor
  · intro h
    exact ⟨⟨w.toNat, h⟩, BitVec.eq_of_toNat_eq (by rw [regWord_toNat])⟩
  · rintro ⟨r, rfl⟩
    rw [regWord_toNat]; exact r.isLt

@[simp] theorem validRegWord_regWord (r : RegIdx) : validRegWord (regWord r) = true := (validRegWord_iff _).2 ⟨r, rfl⟩

theorem regWord_injective {r q : RegIdx} (h : regWord r = regWord q) : r = q := by
  have := congrArg BitVec.toNat h
  rw [regWord_toNat, regWord_toNat] at this
  exact Fin.ext this

@[simp] theorem regWord_inj (r q : RegIdx) : regWord r = regWord q ↔ r = q := ⟨regWord_injective, fun h => h ▸ rfl⟩

/-- The index check accepts the words that name a register. -/
@[simp] theorem reg_regWord (r : RegIdx) : reg (regWord r) = .ok r := by
  have h : (regWord r).toNat < 13 := by rw [regWord_toNat]; exact r.isLt
  simp only [reg, dif_pos h]
  congr 1
  exact Fin.ext (regWord_toNat r)

/-- The index check refuses every other word, and records it. -/
theorem reg_invalid {w : Word} (h : validRegWord w = false) : reg w = .error (.invalidRegister w) := by
  have : ¬ w.toNat < 13 := fun hw => by rw [(validRegWord_iff_toNat w).2 hw] at h; cases h
  simp only [reg, dif_neg this]

/-- Everything the index check can do. -/
theorem reg_cases (w : Word) :
    (∃ r, w = regWord r ∧ reg w = .ok r) ∨ (validRegWord w = false ∧ reg w = .error (.invalidRegister w)) := by
  cases h : validRegWord w
  · exact .inr ⟨rfl, reg_invalid h⟩
  · obtain ⟨r, rfl⟩ := (validRegWord_iff w).1 h
    exact .inl ⟨r, rfl, reg_regWord r⟩

/-- The index check answers `ok` exactly for the words in [0, 13), read as i32. -/
theorem reg_ok_iff (w : Word) (r : RegIdx) : reg w = .ok r ↔ w = regWord r := by
  constructor
  · intro h
    rcases reg_cases w with ⟨q, hq, h'⟩ | ⟨_, h'⟩
    · rw [h] at h'; cases h'; exact hq
    · rw [h] at h'; cases h'
  · rintro rfl; exact reg_regWord r

theorem readReg_ok {s : State} {r : RegIdx} (h : s.readable r = true) : s.readReg r = .ok (s.x.get r) := by
  simp [State.readReg, h]

theorem readReg_error {s : State} {r : RegIdx} (h : s.readable r = false) :
    s.readReg r = .error (.uninitialisedRegister r) := by
  simp [State.readReg, h]

@[simp] theorem writeReg_readable (s : State) (r q : RegIdx) (v : Word) :
    (s.writeReg r v).readable q = (decide (q = r) || s.readable q) := by
  by_cases h : q = r
  · simp [State.readable, h]
  · simp only [State.readable, writeReg_written, if_neg h, decide_eq_false h, Bool.false_or]
    rfl

/-! ### Arithmetic -/

theorem wrap32_toInt (v : Int) (h : intMin ≤ v ∧ v ≤ intMax) : (wrap32 v).toInt = v := by
  simp only [intMin, intMax] at h
  simp only [wrap32, BitVec.toInt_ofInt, Int.bmod]
  omega

@[simp] theorem wrap32_of_toInt (w : Word) : wrap32 w.toInt = w := by
  simp [wrap32]

theorem fits_iff (s : State) (v : Int) :
    s.fits v = true ↔ s.cfg.overflow = .wrap ∨ (intMin ≤ v ∧ v ≤ intMax) := by
  simp [State.fits]

/-- `ovf` lets an exact result pass, reduced to 32 bits, exactly when it fits (00_scope.md R10). -/
theorem ovf_ok {s : State} {v : Int} (h : s.fits v = true) : s.ovf v = .ok (wrap32 v) := by
  rw [fits_iff] at h
  unfold State.ovf Sys2Proof.Machine.ovf inI32
  by_cases hv : intMin ≤ v ∧ v ≤ intMax
  · rw [if_pos (by simpa using hv)]
  · rw [if_neg (by simpa using hv)]
    rcases h with h | h
    · rw [h]
    · exact absurd h hv

/-- `ovf` raises ArithmeticOverflow on every other result. -/
theorem ovf_error {s : State} {v : Int} (h : s.fits v = false) : s.ovf v = .error .arithmeticOverflow := by
  have hn : ¬ (s.cfg.overflow = .wrap ∨ (intMin ≤ v ∧ v ≤ intMax)) := fun h' => by
    rw [(fits_iff s v).2 h'] at h; cases h
  push Not at hn
  have hv : ¬ (intMin ≤ v ∧ v ≤ intMax) := fun h' => absurd h'.2 (not_le.2 (hn.2 h'.1))
  unfold State.ovf Sys2Proof.Machine.ovf inI32
  rw [if_neg (by simpa using hv)]
  cases hp : s.cfg.overflow
  · rfl
  · exact absurd hp hn.1

/-- Everything `ovf` can do. -/
theorem ovf_cases (s : State) (v : Int) :
    (s.fits v = true ∧ s.ovf v = .ok (wrap32 v)) ∨ (s.fits v = false ∧ s.ovf v = .error .arithmeticOverflow) := by
  cases h : s.fits v
  · exact .inr ⟨rfl, ovf_error h⟩
  · exact .inl ⟨rfl, ovf_ok h⟩

/-- Everything the quotient can do (40_alu.md R77). -/
theorem quotient_cases (d : RegIdx) (a b : Word) :
    (b.toInt = 0 ∧ quotient d a b = .error (.divideByZero d)) ∨
    (b.toInt ≠ 0 ∧ a.toInt = intMin ∧ b.toInt = -1 ∧ quotient d a b = .error .arithmeticOverflow) ∨
    (b.toInt ≠ 0 ∧ ¬ (a.toInt = intMin ∧ b.toInt = -1) ∧ quotient d a b = .ok (wrap32 (a.toInt.tdiv b.toInt))) := by
  unfold quotient
  by_cases h0 : b.toInt = 0
  · exact .inl ⟨h0, if_pos h0⟩
  · by_cases h1 : a.toInt = intMin ∧ b.toInt = -1
    · exact .inr (.inl ⟨h0, h1.1, h1.2, by rw [if_neg h0, if_pos h1]⟩)
    · exact .inr (.inr ⟨h0, h1, by rw [if_neg h0, if_neg h1]⟩)

/-! ### Memory through the state -/

theorem inBounds_iff (s : State) (addr : Word) (n : Nat) :
    s.inBounds addr n = true ↔ 0 ≤ addr.toInt ∧ addr.toInt + n ≤ s.cfg.memSize := by
  simp [State.inBounds]

/-- An in-bounds address is its own unsigned value. -/
theorem toNat_of_inBounds {s : State} {addr : Word} {n : Nat} (h : s.inBounds addr n = true) :
    (addr.toNat : Int) = addr.toInt ∧ addr.toNat + n ≤ s.cfg.memSize := by
  rw [inBounds_iff, BitVec.toInt_eq_toNat_cond] at h
  rw [BitVec.toInt_eq_toNat_cond]
  have := addr.isLt
  split at h <;> split <;> omega

/-- Everything a data read can do (20_memory.md R50). -/
theorem loadData_cases (s : State) (n : Nat) (addr : Word) :
    (s.inBounds addr n = true ∧
      s.loadData n addr = .ok (BitVec.ofNat 32 (leValue (Memory.readBytes s.mem addr.toNat n)))) ∨
    (s.inBounds addr n = false ∧ s.loadData n addr = .error (.dataOutOfBounds addr)) := by
  unfold State.loadData
  cases h : s.inBounds addr n <;> simp

/-- Everything a data write can do (20_memory.md R50). -/
theorem storeData_cases (s : State) (n : Nat) (addr v : Word) :
    (s.inBounds addr n = true ∧
      s.storeData n addr v = .ok { s with mem := Memory.writeBytes s.mem addr.toNat (leBytes n v.toNat) }) ∨
    (s.inBounds addr n = false ∧ s.storeData n addr v = .error (.dataOutOfBounds addr)) := by
  unfold State.storeData
  cases h : s.inBounds addr n <;> simp

/-- Everything a fetch can do (20_memory.md R50). -/
theorem fetch_cases (s : State) :
    (s.inBounds s.pc Config.recordBytes = true ∧
      s.fetch = .ok (Memory.readBytes s.mem s.pc.toNat Config.recordBytes)) ∨
    (s.inBounds s.pc Config.recordBytes = false ∧ s.fetch = .error (.fetchOutOfBounds s.pc)) := by
  unfold State.fetch
  cases h : s.inBounds s.pc Config.recordBytes <;> simp

/-! ### The PC advance -/

/-- Everything the advance can do (42_control_transfer.md R98). -/
theorem advance_cases (s : State) :
    (s.fits (s.pc.toInt + 12) = true ∧ s.advance = .ok (s.writeReg s.cfg.idxPc (wrap32 (s.pc.toInt + 12)))) ∨
    (s.fits (s.pc.toInt + 12) = false ∧ s.advance = .error .arithmeticOverflow) := by
  rcases ovf_cases s (s.pc.toInt + 12) with ⟨h, h'⟩ | ⟨h, h'⟩
  · refine .inl ⟨h, ?_⟩
    simp only [State.advance, Config.recordBytes, Nat.cast_ofNat]
    rw [h']; rfl
  · refine .inr ⟨h, ?_⟩
    simp only [State.advance, Config.recordBytes, Nat.cast_ofNat]
    rw [h']; rfl

/-! ### How a step finishes -/

@[simp] theorem finish_error (m : Mnemonic) (s : State) (r : Raise) :
    finish m s (.error r) = .next (s.takeFault (s.cfg.opcodes.opcode m) r) := rfl

@[simp] theorem finish_halts (m : Mnemonic) (s t : State) :
    finish m s (.ok (.halts t)) = .next { t with status := .halted } := rfl

@[simp] theorem finish_holds (m : Mnemonic) (s t : State) (k : InputKind) :
    finish m s (.ok (.holds k t)) = .next { t with pending := some k } := rfl

theorem finish_continues_ok {m : Mnemonic} {s t : State} (h : t.fits (t.pc.toInt + 12) = true) :
    finish m s (.ok (.continues t)) = .next (t.writeReg t.cfg.idxPc (wrap32 (t.pc.toInt + 12))) := by
  rcases advance_cases t with ⟨_, h'⟩ | ⟨h', _⟩
  · simp only [finish, h']
  · rw [h] at h'; cases h'

theorem finish_continues_error {m : Mnemonic} {s t : State} (h : t.fits (t.pc.toInt + 12) = false) :
    finish m s (.ok (.continues t)) = .next (s.takeFault (s.cfg.opcodes.opcode m) .arithmeticOverflow) := by
  rcases advance_cases t with ⟨h', _⟩ | ⟨_, h'⟩
  · rw [h] at h'; cases h'
  · simp only [finish, h']

/-- Everything a step can finish in. -/
theorem finish_cases (m : Mnemonic) (s : State) (body : Except Raise Ending) :
    (∃ r, body = .error r ∧ finish m s body = .next (s.takeFault (s.cfg.opcodes.opcode m) r)) ∨
    (∃ t, body = .ok (.continues t) ∧ t.fits (t.pc.toInt + 12) = false ∧
      finish m s body = .next (s.takeFault (s.cfg.opcodes.opcode m) .arithmeticOverflow)) ∨
    (∃ t, body = .ok (.continues t) ∧ t.fits (t.pc.toInt + 12) = true ∧
      finish m s body = .next (t.writeReg t.cfg.idxPc (wrap32 (t.pc.toInt + 12)))) ∨
    (∃ t, body = .ok (.halts t) ∧ finish m s body = .next { t with status := .halted }) ∨
    (∃ k t, body = .ok (.holds k t) ∧ finish m s body = .next { t with pending := some k }) := by
  match body with
  | .error r => exact .inl ⟨r, rfl, rfl⟩
  | .ok (.continues t) =>
    cases h : t.fits (t.pc.toInt + 12)
    · exact .inr (.inl ⟨t, rfl, h, finish_continues_error h⟩)
    · exact .inr (.inr (.inl ⟨t, rfl, h, finish_continues_ok h⟩))
  | .ok (.halts t) => exact .inr (.inr (.inr (.inl ⟨t, rfl, rfl⟩)))
  | .ok (.holds k t) => exact .inr (.inr (.inr (.inr ⟨k, t, rfl, rfl⟩)))

/-! ### The shapes the meanings share -/

/-- A binary operation on readable registers. -/
theorem binary_ok {s : State} {ia ib : RegIdx} {f : RegIdx → Word → Word → Except Raise Word}
    (ha : s.readable ia = true) (hb : s.readable ib = true) :
    binary s (regWord ia) (regWord ib) f =
      (f ib (s.x.get ia) (s.x.get ib)).map (fun v => Ending.continues (s.writeReg ia v)) := by
  simp only [binary, reg_regWord, readReg_ok ha, readReg_ok hb, ok_bind]
  cases f ib (s.x.get ia) (s.x.get ib) <;> rfl

/-- Everything a binary operation can do, in the order of its checks (60_exceptions.md R125). -/
theorem binary_cases (s : State) (ra rb : Word) (f : RegIdx → Word → Word → Except Raise Word) :
    (validRegWord ra = false ∧ binary s ra rb f = .error (.invalidRegister ra)) ∨
    (∃ ia, ra = regWord ia ∧ validRegWord rb = false ∧ binary s ra rb f = .error (.invalidRegister rb)) ∨
    (∃ ia ib, ra = regWord ia ∧ rb = regWord ib ∧ s.readable ia = false ∧
      binary s ra rb f = .error (.uninitialisedRegister ia)) ∨
    (∃ ia ib, ra = regWord ia ∧ rb = regWord ib ∧ s.readable ia = true ∧ s.readable ib = false ∧
      binary s ra rb f = .error (.uninitialisedRegister ib)) ∨
    (∃ ia ib, ra = regWord ia ∧ rb = regWord ib ∧ s.readable ia = true ∧ s.readable ib = true ∧
      binary s ra rb f = (f ib (s.x.get ia) (s.x.get ib)).map (fun v => Ending.continues (s.writeReg ia v))) := by
  rcases reg_cases ra with ⟨ia, rfl, _⟩ | ⟨h, h'⟩
  · rcases reg_cases rb with ⟨ib, rfl, _⟩ | ⟨h, h'⟩
    · cases ha : s.readable ia
      · exact .inr (.inr (.inl ⟨ia, ib, rfl, rfl, ha, by simp only [binary, reg_regWord, readReg_error ha, ok_bind, error_bind]⟩))
      · cases hb : s.readable ib
        · exact .inr (.inr (.inr (.inl ⟨ia, ib, rfl, rfl, ha, hb, by
            simp only [binary, reg_regWord, readReg_ok ha, readReg_error hb, ok_bind, error_bind]⟩)))
        · exact .inr (.inr (.inr (.inr ⟨ia, ib, rfl, rfl, ha, hb, binary_ok ha hb⟩)))
    · exact .inr (.inl ⟨ia, rfl, h, by simp only [binary, reg_regWord, h', ok_bind, error_bind]⟩)
  · exact .inl ⟨h, by simp only [binary, h', error_bind]⟩

/-- Everything a load can do. -/
theorem loadInto_cases (s : State) (n : Nat) (ra addr : Word) :
    (validRegWord ra = false ∧ loadInto s n ra addr = .error (.invalidRegister ra)) ∨
    (∃ ia, ra = regWord ia ∧ s.inBounds addr n = false ∧ loadInto s n ra addr = .error (.dataOutOfBounds addr)) ∨
    (∃ ia, ra = regWord ia ∧ s.inBounds addr n = true ∧
      loadInto s n ra addr =
        .ok (.continues (s.writeReg ia (BitVec.ofNat 32 (leValue (Memory.readBytes s.mem addr.toNat n)))))) := by
  rcases reg_cases ra with ⟨ia, rfl, _⟩ | ⟨h, h'⟩
  · rcases loadData_cases s n addr with ⟨h, h'⟩ | ⟨h, h'⟩
    · exact .inr (.inr ⟨ia, rfl, h, by simp only [loadInto, reg_regWord, h', ok_bind]⟩)
    · exact .inr (.inl ⟨ia, rfl, h, by simp only [loadInto, reg_regWord, h', ok_bind, error_bind]⟩)
  · exact .inl ⟨h, by simp only [loadInto, h', error_bind]⟩

/-- Everything a store can do: the register is read before the bounds are checked. -/
theorem storeFrom_cases (s : State) (n : Nat) (ra addr : Word) :
    (validRegWord ra = false ∧ storeFrom s n ra addr = .error (.invalidRegister ra)) ∨
    (∃ ia, ra = regWord ia ∧ s.readable ia = false ∧ storeFrom s n ra addr = .error (.uninitialisedRegister ia)) ∨
    (∃ ia, ra = regWord ia ∧ s.readable ia = true ∧ s.inBounds addr n = false ∧
      storeFrom s n ra addr = .error (.dataOutOfBounds addr)) ∨
    (∃ ia, ra = regWord ia ∧ s.readable ia = true ∧ s.inBounds addr n = true ∧
      storeFrom s n ra addr =
        .ok (.continues { s with mem := Memory.writeBytes s.mem addr.toNat (leBytes n (s.x.get ia).toNat) })) := by
  rcases reg_cases ra with ⟨ia, rfl, _⟩ | ⟨h, h'⟩
  · cases ha : s.readable ia
    · exact .inr (.inl ⟨ia, rfl, ha, by simp only [storeFrom, reg_regWord, readReg_error ha, ok_bind, error_bind]⟩)
    · rcases storeData_cases s n addr (s.x.get ia) with ⟨h, h'⟩ | ⟨h, h'⟩
      · exact .inr (.inr (.inr ⟨ia, rfl, ha, h, by simp only [storeFrom, reg_regWord, readReg_ok ha, h', ok_bind]⟩))
      · exact .inr (.inr (.inl ⟨ia, rfl, ha, h, by simp only [storeFrom, reg_regWord, readReg_ok ha, h', ok_bind, error_bind]⟩))
  · exact .inl ⟨h, by simp only [storeFrom, h', error_bind]⟩

/-- Everything a control transfer can do. -/
theorem transferTo_cases (s : State) (target : Word) :
    (s.fits (target.toInt - 12) = true ∧
      transferTo s target = .ok (.continues (s.writeReg s.cfg.idxPc (wrap32 (target.toInt - 12))))) ∨
    (s.fits (target.toInt - 12) = false ∧ transferTo s target = .error .arithmeticOverflow) := by
  rcases ovf_cases s (target.toInt - 12) with ⟨h, h'⟩ | ⟨h, h'⟩
  · exact .inl ⟨h, by simp only [transferTo, Config.jumpBias, h', ok_bind]⟩
  · exact .inr ⟨h, by simp only [transferTo, Config.jumpBias, h', error_bind]⟩

/-- Everything a conditional transfer can do. -/
theorem transferIf_cases (s : State) (ra target : Word) (test : Int → Bool) :
    (validRegWord ra = false ∧ transferIf s ra target test = .error (.invalidRegister ra)) ∨
    (∃ ia, ra = regWord ia ∧ s.readable ia = false ∧
      transferIf s ra target test = .error (.uninitialisedRegister ia)) ∨
    (∃ ia, ra = regWord ia ∧ s.readable ia = true ∧ test (s.valueOf ia) = true ∧
      transferIf s ra target test = transferTo s target) ∨
    (∃ ia, ra = regWord ia ∧ s.readable ia = true ∧ test (s.valueOf ia) = false ∧
      transferIf s ra target test = .ok (.continues s)) := by
  rcases reg_cases ra with ⟨ia, rfl, _⟩ | ⟨h, h'⟩
  · cases ha : s.readable ia
    · exact .inr (.inl ⟨ia, rfl, ha, by simp only [transferIf, reg_regWord, readReg_error ha, ok_bind, error_bind]⟩)
    · cases ht : test (s.valueOf ia)
      · refine .inr (.inr (.inr ⟨ia, rfl, ha, ht, ?_⟩))
        simp only [transferIf, reg_regWord, readReg_ok ha, ok_bind]
        exact if_neg (by rw [State.valueOf] at ht; simp [ht])
      · refine .inr (.inr (.inl ⟨ia, rfl, ha, ht, ?_⟩))
        simp only [transferIf, reg_regWord, readReg_ok ha, ok_bind]
        exact if_pos ht
  · exact .inl ⟨h, by simp only [transferIf, h', error_bind]⟩

/-- Everything a conversion of `io` can do. -/
theorem convertIo_cases (s : State) (f : Word → Except Raise Word) :
    (s.readable Config.idxIo = false ∧ convertIo s f = .error (.uninitialisedRegister Config.idxIo)) ∨
    (s.readable Config.idxIo = true ∧
      convertIo s f = (f (s.x.get Config.idxIo)).map (fun v => Ending.continues (s.writeReg Config.idxIo v))) := by
  cases h : s.readable Config.idxIo
  · exact .inl ⟨rfl, by simp only [convertIo, readReg_error h, error_bind]⟩
  · refine .inr ⟨rfl, ?_⟩
    simp only [convertIo, readReg_ok h, ok_bind]
    cases f (s.x.get Config.idxIo) <;> rfl

/-- Everything an output instruction can do. -/
theorem outputIo_cases (s : State) (event : Word → Event) :
    (s.readable Config.idxIo = false ∧ outputIo s event = .error (.uninitialisedRegister Config.idxIo)) ∨
    (s.readable Config.idxIo = true ∧
      outputIo s event = .ok (.continues (s.emit (event (s.x.get Config.idxIo))))) := by
  cases h : s.readable Config.idxIo
  · exact .inl ⟨rfl, by simp only [outputIo, readReg_error h, error_bind]⟩
  · exact .inr ⟨rfl, by simp only [outputIo, readReg_ok h, ok_bind]⟩

/-! ### The claims' end states in terms of the operations -/

theorem faultedBy_eq (s : State) (op : Word) (r : Raise) : s.takeFault op r = s.faultedBy op r.cause r.detail := rfl

/-- Writing the program counter is `goTo`. -/
theorem writeReg_pc_eq_goTo (s : State) (v : Word) : s.writeReg s.cfg.idxPc v = s.goTo v := by
  apply State.eq_of_fields <;> intros <;> simp [State.goTo]

/-- A register write followed by the advance is `afterWrite`. -/
theorem writeReg_advance_eq_afterWrite (s : State) (d : RegIdx) (v : Word) :
    (s.writeReg d v).writeReg s.cfg.idxPc (wrap32 ((s.writeReg d v).pc.toInt + 12)) = s.afterWrite d v := by
  have hpc : (s.writeReg d v).pc = s.pcBeforeAdvance d v := by
    simp [State.pcBeforeAdvance, State.pc, eq_comm]
  rw [hpc]
  apply State.eq_of_fields <;> intros <;> simp [State.afterWrite, Bool.or_assoc]

/-- An instruction that writes one register and continues ends in `afterWrite`. -/
theorem finish_write {m : Mnemonic} {s : State} {d : RegIdx} {v : Word} (h : s.advanceFits d v = true) :
    finish m s (.ok (.continues (s.writeReg d v))) = .next (s.afterWrite d v) := by
  have hpc : (s.writeReg d v).pc = s.pcBeforeAdvance d v := by
    simp [State.pcBeforeAdvance, State.pc, eq_comm]
  have hf : (s.writeReg d v).fits ((s.writeReg d v).pc.toInt + 12) = true := by rw [hpc]; exact h
  rw [finish_continues_ok hf, ← writeReg_advance_eq_afterWrite]
  rfl

/-- An instruction that writes one register and whose advance then overflows. -/
theorem finish_write_error {m : Mnemonic} {s : State} {d : RegIdx} {v : Word} (h : s.advanceFits d v = false) :
    finish m s (.ok (.continues (s.writeReg d v))) =
      .next (s.takeFault (s.cfg.opcodes.opcode m) .arithmeticOverflow) := by
  have hpc : (s.writeReg d v).pc = s.pcBeforeAdvance d v := by
    simp [State.pcBeforeAdvance, State.pc, eq_comm]
  exact finish_continues_error (by rw [hpc]; exact h)

/-- Writing the program counter itself goes on 12 past the value (42_control_transfer.md R98). -/
theorem afterWrite_pc (s : State) (v : Word) : s.afterWrite s.cfg.idxPc v = s.goTo (wrap32 (v.toInt + 12)) := by
  apply State.eq_of_fields <;> (simp [State.afterWrite, State.goTo, State.pcBeforeAdvance])
  intros; simp_all

@[simp] theorem advanceFits_pc (s : State) (v : Word) : s.advanceFits s.cfg.idxPc v = s.fits (v.toInt + 12) := by
  simp [State.advanceFits, State.pcBeforeAdvance]

/-- An instruction that leaves the registers alone and continues moves `pc` on by 12. -/
theorem finish_plain {m : Mnemonic} {s t : State} (hx : t.x = s.x) (hc : t.cfg = s.cfg) (h : s.plainAdvanceFits = true) :
    finish m s (.ok (.continues t)) = .next (t.goTo (wrap32 (s.valueOf s.cfg.idxPc + 12))) := by
  have e : t.pc.toInt + 12 = s.valueOf s.cfg.idxPc + 12 := by simp [State.pc, State.valueOf, hx, hc]
  have hf : t.fits (t.pc.toInt + 12) = true := by rw [e]; simpa [State.fits, hc, State.plainAdvanceFits] using h
  rw [finish_continues_ok hf, e, writeReg_pc_eq_goTo]

/-- A store that continues. -/
theorem finish_store {m : Mnemonic} {s : State} (mem : Memory) (h : s.plainAdvanceFits = true) :
    finish m s (.ok (.continues { s with mem := mem })) = .next { s.afterNone with mem := mem } :=
  finish_plain (t := { s with mem := mem }) rfl rfl h

end Sys2Proof.Machine
end

