-- ==== Sys2Proof/Laws/Exec.lean ====
section
/-! SUPPORT. Everything an instruction can do, said once for all of them: the frames and the invariant cite `exec_ends`. -/

namespace Sys2Proof.Machine

/-- What a fault that an instruction takes must satisfy: its cause is in the instruction's row of 60_exceptions.md R121, and
the two parameters allow it (60_exceptions.md R122). -/
def MayRaise (i : Instr) (s : State) (r : Raise) : Prop :=
  r.cause ∈ raisedCauses i ∧ (r.cause = .uninitialisedRegister → s.cfg.regReset = .unwritten) ∧
  (r.cause = .arithmeticOverflow → s.cfg.overflow = .fault ∨ ∃ ra rb, i = .divide ra rb)

/-- The ways an instruction can end. -/
inductive ExecEnds (i : Instr) (s : State) : Prop where
  | fault (r : Raise) (may : MayRaise i s r)
      (eq : exec i s = .next (s.takeFault (s.cfg.opcodes.opcode i.mnemonic) r))
  | write (d : RegIdx) (v : Word) (dest : writtenWord i = some (regWord d)) (plain : isTransfer i = false)
      (fits : s.advanceFits d v = true) (eq : exec i s = .next (s.afterWrite d v))
  | transfer (target : Word) (jump : isTransfer i = true) (eq : exec i s = .next (s.goTo target))
  | store (n : Nat) (addr v : Word) (range : storedRange i = some (addr, n)) (bounds : s.inBounds addr n = true)
      (fits : s.plainAdvanceFits = true)
      (eq : exec i s = .next { s.afterNone with mem := Memory.writeBytes s.mem addr.toNat (leBytes n v.toNat) })
  | output (e : Event) (which : i = .outputASCII ∨ i = .outputInteger) (fits : s.plainAdvanceFits = true)
      (eq : exec i s = .next (s.afterNone.emit e))
  | hold (k : InputKind) (which : i.mnemonic = inputMnemonic k) (eq : exec i s = .next { s with pending := some k })
  | halt (which : i = .endRun) (eq : exec i s = .next { s with status := .halted })

/-! ### The parts -/

theorem overflow_of_fits_false {s : State} {v : Int} (h : s.fits v = false) : s.cfg.overflow = .fault := by
  cases hp : s.cfg.overflow
  · rfl
  · simp [State.fits, hp] at h

theorem regReset_of_readable_false {s : State} {r : RegIdx} (h : s.readable r = false) :
    s.cfg.regReset = .unwritten := by
  cases hp : s.cfg.regReset
  · rfl
  · simp [State.readable, hp] at h

/-- A target less the bias, moved on by the advance, is the target: the two wrap back (42_control_transfer.md R99). -/
theorem advance_of_bias (v : Word) : wrap32 ((wrap32 (v.toInt - 12)).toInt + 12) = v := by
  apply BitVec.eq_of_toInt_eq
  simp only [wrap32, BitVec.toInt_ofInt, Int.bmod]
  have := v.toInt_lt
  have := v.le_toInt
  norm_num at *
  omega

theorem fits_of_bias {s : State} {v : Word} (h : s.fits (v.toInt - 12) = true) :
    s.fits ((wrap32 (v.toInt - 12)).toInt + 12) = true := by
  rw [fits_iff] at *
  rcases h with h | h
  · exact .inl h
  · rw [wrap32_toInt _ h]
    have := v.toInt_lt
    have := v.le_toInt
    simp only [intMin, intMax]
    norm_num at *
    omega

/-- A transfer whose arithmetic fits ends in `goTo`. -/
theorem finish_transfer {m : Mnemonic} {s : State} {target : Word} (h : s.transferFits target = true) :
    finish m s (transferTo s target) = .next (s.goTo target) := by
  rcases transferTo_cases s target with ⟨h1, h2⟩ | ⟨h1, _⟩
  · have hpc : (s.writeReg s.cfg.idxPc (wrap32 (target.toInt - 12))).pc = wrap32 (target.toInt - 12) := by simp
    rw [h2, finish_continues_ok (by rw [hpc]; exact fits_of_bias h1), hpc, advance_of_bias, ← writeReg_pc_eq_goTo]
    congr 1
    apply State.eq_of_fields <;> (simp; try (intros; simp_all))
  · exact absurd (h.symm.trans h1) (by decide)

/-- A transfer whose arithmetic overflows. -/
theorem finish_transfer_error {m : Mnemonic} {s : State} {target : Word} (h : s.transferFits target = false) :
    finish m s (transferTo s target) = .next (s.takeFault (s.cfg.opcodes.opcode m) .arithmeticOverflow) := by
  rcases transferTo_cases s target with ⟨h1, _⟩ | ⟨_, h2⟩
  · exact absurd (h.symm.trans h1) (by decide)
  · rw [h2, finish_error]

/-! ### From the body of a meaning to its end -/

namespace ExecEnds

variable {i : Instr} {s : State}

theorem of_error {r : Raise} (may : MayRaise i s r) (h : exec i s = finish i.mnemonic s (.error r)) : ExecEnds i s :=
  .fault r may h

theorem of_write {d : RegIdx} {v : Word} (h : exec i s = finish i.mnemonic s (.ok (.continues (s.writeReg d v))))
    (dest : writtenWord i = some (regWord d)) (plain : isTransfer i = false)
    (may : .arithmeticOverflow ∈ raisedCauses i) : ExecEnds i s := by
  cases hf : s.advanceFits d v
  · refine .fault .arithmeticOverflow ⟨may, by simp [Raise.cause], fun _ => .inl (overflow_of_fits_false hf)⟩ ?_
    rw [h, finish_write_error hf]
  · exact .write d v dest plain hf (by rw [h, finish_write hf])

theorem of_overflow {v : Int} (hf : s.fits v = false) (may : .arithmeticOverflow ∈ raisedCauses i)
    (h : exec i s = finish i.mnemonic s (.error .arithmeticOverflow)) : ExecEnds i s :=
  .fault .arithmeticOverflow ⟨may, by simp [Raise.cause], fun _ => .inl (overflow_of_fits_false hf)⟩ h

theorem of_unreadable {r : RegIdx} (hr : s.readable r = false) (may : .uninitialisedRegister ∈ raisedCauses i)
    (h : exec i s = finish i.mnemonic s (.error (.uninitialisedRegister r))) : ExecEnds i s :=
  .fault (.uninitialisedRegister r) ⟨may, fun _ => regReset_of_readable_false hr, by simp [Raise.cause]⟩ h

theorem of_invalid {w : Word} (may : .invalidRegister ∈ raisedCauses i)
    (h : exec i s = finish i.mnemonic s (.error (.invalidRegister w))) : ExecEnds i s :=
  .fault (.invalidRegister w) ⟨may, by simp [Raise.cause], by simp [Raise.cause]⟩ h

theorem of_transfer {target : Word} (h : exec i s = finish i.mnemonic s (transferTo s target))
    (jump : isTransfer i = true) (may : .arithmeticOverflow ∈ raisedCauses i) : ExecEnds i s := by
  cases hf : s.transferFits target
  · exact .fault .arithmeticOverflow ⟨may, by simp [Raise.cause], fun _ => .inl (overflow_of_fits_false hf)⟩
      (by rw [h, finish_transfer_error hf])
  · exact .transfer target jump (by rw [h, finish_transfer hf])

theorem of_binary {ra rb : Word} {f : RegIdx → Word → Word → Except Raise Word}
    (h : exec i s = finish i.mnemonic s (binary s ra rb f)) (dest : writtenWord i = some ra) (plain : isTransfer i = false)
    (may1 : .invalidRegister ∈ raisedCauses i) (may2 : .uninitialisedRegister ∈ raisedCauses i)
    (may3 : .arithmeticOverflow ∈ raisedCauses i) (may : ∀ ib a b r, f ib a b = .error r → MayRaise i s r) :
    ExecEnds i s := by
  rcases binary_cases s ra rb f with ⟨_, h'⟩ | ⟨_, _, _, h'⟩ | ⟨_, _, _, _, hr, h'⟩ | ⟨_, _, _, _, _, hr, h'⟩ |
    ⟨ia, ib, rfl, rfl, _, _, h'⟩
  · exact of_invalid may1 (by rw [h, h'])
  · exact of_invalid may1 (by rw [h, h'])
  · exact of_unreadable hr may2 (by rw [h, h'])
  · exact of_unreadable hr may2 (by rw [h, h'])
  · cases hf : f ib (s.x.get ia) (s.x.get ib) with
    | error r => exact of_error (may _ _ _ r hf) (by rw [h, h', hf]; rfl)
    | ok v => exact of_write (v := v) (by rw [h, h', hf]; rfl) dest plain may3

theorem of_load {n : Nat} {ra addr : Word} (h : exec i s = finish i.mnemonic s (loadInto s n ra addr))
    (dest : writtenWord i = some ra) (plain : isTransfer i = false) (may1 : .invalidRegister ∈ raisedCauses i)
    (may2 : .dataOutOfBounds ∈ raisedCauses i) (may3 : .arithmeticOverflow ∈ raisedCauses i) : ExecEnds i s := by
  rcases loadInto_cases s n ra addr with ⟨_, h'⟩ | ⟨_, _, _, h'⟩ | ⟨ia, rfl, _, h'⟩
  · exact of_invalid may1 (by rw [h, h'])
  · exact of_error (r := .dataOutOfBounds addr) ⟨may2, by simp [Raise.cause], by simp [Raise.cause]⟩ (by rw [h, h'])
  · exact of_write (by rw [h, h']) dest plain may3

theorem of_plain_overflow {m : Mnemonic} {t : State} (hx : t.x = s.x) (hc : t.cfg = s.cfg)
    (hf : s.plainAdvanceFits = false) :
    finish m s (.ok (.continues t)) = .next (s.takeFault (s.cfg.opcodes.opcode m) .arithmeticOverflow) := by
  apply finish_continues_error
  have e : t.pc.toInt + 12 = s.valueOf s.cfg.idxPc + 12 := by simp [State.pc, State.valueOf, hx, hc]
  rw [e]
  simpa [State.fits, hc, State.plainAdvanceFits] using hf

theorem of_store {n : Nat} {ra addr : Word} (h : exec i s = finish i.mnemonic s (storeFrom s n ra addr))
    (range : storedRange i = some (addr, n)) (may1 : .invalidRegister ∈ raisedCauses i)
    (may2 : .uninitialisedRegister ∈ raisedCauses i) (may3 : .dataOutOfBounds ∈ raisedCauses i)
    (may4 : .arithmeticOverflow ∈ raisedCauses i) : ExecEnds i s := by
  rcases storeFrom_cases s n ra addr with ⟨_, h'⟩ | ⟨_, _, hr, h'⟩ | ⟨_, _, _, _, h'⟩ | ⟨ia, _, _, hb, h'⟩
  · exact of_invalid may1 (by rw [h, h'])
  · exact of_unreadable hr may2 (by rw [h, h'])
  · exact of_error (r := .dataOutOfBounds addr) ⟨may3, by simp [Raise.cause], by simp [Raise.cause]⟩ (by rw [h, h'])
  · cases hf : s.plainAdvanceFits
    · refine of_overflow (v := s.valueOf s.cfg.idxPc + 12) hf may4 ?_
      rw [h, h', finish_error]
      exact of_plain_overflow (s := s) rfl rfl hf
    · exact .store n addr (s.x.get ia) range hb hf (by rw [h, h', finish_store _ hf])

theorem of_conditional {ra target : Word} {test : Int → Bool}
    (h : exec i s = finish i.mnemonic s (transferIf s ra target test)) (jump : isTransfer i = true)
    (may1 : .invalidRegister ∈ raisedCauses i) (may2 : .uninitialisedRegister ∈ raisedCauses i)
    (may3 : .arithmeticOverflow ∈ raisedCauses i) : ExecEnds i s := by
  rcases transferIf_cases s ra target test with ⟨_, h'⟩ | ⟨_, _, hr, h'⟩ | ⟨_, _, _, _, h'⟩ | ⟨_, _, _, _, h'⟩
  · exact of_invalid may1 (by rw [h, h'])
  · exact of_unreadable hr may2 (by rw [h, h'])
  · exact of_transfer (by rw [h, h']) jump may3
  · cases hf : s.plainAdvanceFits
    · refine of_overflow (v := s.valueOf s.cfg.idxPc + 12) hf may3 ?_
      rw [h, h', finish_error]
      exact of_plain_overflow (s := s) rfl rfl hf
    · exact .transfer _ jump (by rw [h, h', finish_plain (s := s) rfl rfl hf])

theorem of_convert {f : Word → Except Raise Word} (h : exec i s = finish i.mnemonic s (convertIo s f))
    (dest : writtenWord i = some (regWord Config.idxIo)) (plain : isTransfer i = false)
    (may1 : .uninitialisedRegister ∈ raisedCauses i) (may2 : .arithmeticOverflow ∈ raisedCauses i)
    (may : ∀ a r, f a = .error r → MayRaise i s r) : ExecEnds i s := by
  rcases convertIo_cases s f with ⟨hr, h'⟩ | ⟨_, h'⟩
  · exact of_unreadable hr may1 (by rw [h, h'])
  · cases hf : f (s.x.get Config.idxIo) with
    | error r => exact of_error (may _ r hf) (by rw [h, h', hf]; rfl)
    | ok v => exact of_write (v := v) (by rw [h, h', hf]; rfl) dest plain may2

theorem of_output {event : Word → Event} (h : exec i s = finish i.mnemonic s (outputIo s event))
    (which : i = .outputASCII ∨ i = .outputInteger) (may1 : .uninitialisedRegister ∈ raisedCauses i)
    (may2 : .arithmeticOverflow ∈ raisedCauses i) : ExecEnds i s := by
  rcases outputIo_cases s event with ⟨hr, h'⟩ | ⟨_, h'⟩
  · exact of_unreadable hr may1 (by rw [h, h'])
  · cases hf : s.plainAdvanceFits
    · refine of_overflow (v := s.valueOf s.cfg.idxPc + 12) hf may2 ?_
      rw [h, h', finish_error]
      exact of_plain_overflow (s := s) rfl rfl hf
    · refine .output (event (s.x.get Config.idxIo)) which hf ?_
      rw [h, h', finish_plain (s := s) (t := s.emit _) rfl rfl hf]
      rfl

end ExecEnds

/-- A fault of `ovf` is one the instruction may raise. -/
theorem mayRaise_of_ovf {i : Instr} {s : State} {v : Int} {f : Word → Except Raise Word} {r : Raise}
    (may : .arithmeticOverflow ∈ raisedCauses i) (hf : ∀ w, ∃ u, f w = .ok u) (h : (s.ovf v >>= f) = .error r) :
    MayRaise i s r := by
  rcases ovf_cases s v with ⟨_, h'⟩ | ⟨hv, h'⟩
  · obtain ⟨u, hu⟩ := hf (wrap32 v)
    rw [h', ok_bind, hu] at h
    cases h
  · rw [h', error_bind] at h
    cases h
    exact ⟨may, by simp [Raise.cause], fun _ => .inl (overflow_of_fits_false hv)⟩

theorem mayRaise_of_ovf_alone {i : Instr} {s : State} {v : Int} {r : Raise}
    (may : .arithmeticOverflow ∈ raisedCauses i) (h : s.ovf v = .error r) : MayRaise i s r :=
  mayRaise_of_ovf (f := .ok) may (fun w => ⟨w, rfl⟩) (by rw [h, error_bind])

/-- A fault of the quotient is one that Divide may raise. -/
theorem mayRaise_of_quotient {s : State} {ra rb : Word} {ib : RegIdx} {a b : Word} {r : Raise}
    (h : quotient ib a b = .error r) : MayRaise (.divide ra rb) s r := by
  rcases quotient_cases ib a b with ⟨_, h'⟩ | ⟨_, _, _, h'⟩ | ⟨_, _, h'⟩
  · rw [h'] at h; cases h
    exact ⟨by simp [raisedCauses, Raise.cause], by simp [Raise.cause], by simp [Raise.cause]⟩
  · rw [h'] at h; cases h
    exact ⟨by simp [raisedCauses, Raise.cause], by simp [Raise.cause], fun _ => .inr ⟨ra, rb, rfl⟩⟩
  · rw [h'] at h; cases h

theorem execEnds_addImmediate (ra imm : Word) (s : State) : ExecEnds (.addImmediate ra imm) s := by
  rcases reg_cases ra with ⟨ia, rfl, h1⟩ | ⟨_, h1⟩
  · cases hr : s.readable ia
    · refine .of_unreadable hr (by simp [raisedCauses]) ?_
      show finish .addImmediate s _ = _
      rw [h1, ok_bind, readReg_error hr, error_bind]; rfl
    · rcases ovf_cases s ((s.x.get ia).toInt + imm.toInt) with ⟨hv, h2⟩ | ⟨hv, h2⟩
      · refine .of_write (d := ia) (v := wrap32 ((s.x.get ia).toInt + imm.toInt)) ?_ rfl rfl (by simp [raisedCauses])
        show finish .addImmediate s _ = _
        rw [h1, ok_bind, readReg_ok hr, ok_bind, h2, ok_bind]; rfl
      · refine .of_overflow hv (by simp [raisedCauses]) ?_
        show finish .addImmediate s _ = _
        rw [h1, ok_bind, readReg_ok hr, ok_bind, h2, error_bind]; rfl
  · refine .of_invalid (by simp [raisedCauses]) (w := ra) ?_
    show finish .addImmediate s _ = _
    rw [h1, error_bind]; rfl

theorem execEnds_move (ra rb : Word) (s : State) : ExecEnds (.move ra rb) s := by
  rcases reg_cases ra with ⟨ia, rfl, h1⟩ | ⟨_, h1⟩
  · rcases reg_cases rb with ⟨ib, rfl, h2⟩ | ⟨_, h2⟩
    · cases hr : s.readable ib
      · refine .of_unreadable hr (by simp [raisedCauses]) ?_
        show finish .move s _ = _
        rw [h1, ok_bind, h2, ok_bind, readReg_error hr, error_bind]; rfl
      · refine .of_write (d := ia) (v := s.x.get ib) ?_ rfl rfl (by simp [raisedCauses])
        show finish .move s _ = _
        rw [h1, ok_bind, h2, ok_bind, readReg_ok hr, ok_bind]; rfl
    · refine .of_invalid (by simp [raisedCauses]) (w := rb) ?_
      show finish .move s _ = _
      rw [h1, ok_bind, h2, error_bind]; rfl
  · refine .of_invalid (by simp [raisedCauses]) (w := ra) ?_
    show finish .move s _ = _
    rw [h1, error_bind]; rfl

theorem execEnds_loadAddress (ra imm : Word) (s : State) : ExecEnds (.loadAddress ra imm) s := by
  rcases reg_cases ra with ⟨ia, rfl, h1⟩ | ⟨_, h1⟩
  · refine .of_write (d := ia) (v := imm) ?_ rfl rfl (by simp [raisedCauses])
    show finish .loadAddress s _ = _
    rw [h1, ok_bind]; rfl
  · refine .of_invalid (by simp [raisedCauses]) (w := ra) ?_
    show finish .loadAddress s _ = _
    rw [h1, error_bind]; rfl

theorem execEnds_jumpRelative (ra : Word) (s : State) : ExecEnds (.jumpRelative ra) s := by
  rcases reg_cases ra with ⟨ia, rfl, h1⟩ | ⟨_, h1⟩
  · cases hr : s.readable ia
    · refine .of_unreadable hr (by simp [raisedCauses]) ?_
      show finish .jumpRelative s _ = _
      rw [h1, ok_bind, readReg_error hr, error_bind]; rfl
    · refine .of_transfer (target := s.x.get ia) ?_ rfl (by simp [raisedCauses])
      show finish .jumpRelative s _ = _
      rw [h1, ok_bind, readReg_ok hr, ok_bind]; rfl
  · refine .of_invalid (by simp [raisedCauses]) (w := ra) ?_
    show finish .jumpRelative s _ = _
    rw [h1, error_bind]; rfl

/-- Everything an instruction can do. -/
theorem exec_ends (i : Instr) (s : State) : ExecEnds i s := by
  cases i with
  | add ra rb =>
    exact .of_binary rfl rfl rfl (by simp [raisedCauses]) (by simp [raisedCauses]) (by simp [raisedCauses])
      (fun _ _ _ _ h => mayRaise_of_ovf_alone (by simp [raisedCauses]) h)
  | addImmediate ra imm => exact execEnds_addImmediate ra imm s
  | logicalAnd ra rb =>
    exact .of_binary rfl rfl rfl (by simp [raisedCauses]) (by simp [raisedCauses]) (by simp [raisedCauses])
      (fun _ _ _ _ h => by cases h)
  | compare ra rb =>
    exact .of_binary rfl rfl rfl (by simp [raisedCauses]) (by simp [raisedCauses]) (by simp [raisedCauses])
      (fun _ _ _ _ h => mayRaise_of_ovf (by simp [raisedCauses]) (fun _ => ⟨_, rfl⟩) h)
  | compareZeroJump ra target =>
    exact .of_conditional rfl rfl (by simp [raisedCauses]) (by simp [raisedCauses]) (by simp [raisedCauses])
  | convertASCIIToInteger =>
    exact .of_convert rfl rfl rfl (by simp [raisedCauses]) (by simp [raisedCauses])
      (fun _ _ h => mayRaise_of_ovf (by simp [raisedCauses]) (fun _ => ⟨_, rfl⟩) h)
  | convertIntegerToASCII =>
    exact .of_convert rfl rfl rfl (by simp [raisedCauses]) (by simp [raisedCauses])
      (fun _ _ h => mayRaise_of_ovf (by simp [raisedCauses]) (fun _ => ⟨_, rfl⟩) h)
  | divide ra rb =>
    exact .of_binary rfl rfl rfl (by simp [raisedCauses]) (by simp [raisedCauses]) (by simp [raisedCauses])
      (fun _ _ _ _ h => mayRaise_of_quotient h)
  | greaterThanZeroJump ra target =>
    exact .of_conditional rfl rfl (by simp [raisedCauses]) (by simp [raisedCauses]) (by simp [raisedCauses])
  | inputASCII => exact .hold .char rfl rfl
  | inputInteger => exact .hold .int rfl rfl
  | jump target => exact .of_transfer rfl rfl (by simp [raisedCauses])
  | jumpRelative ra => exact execEnds_jumpRelative ra s
  | lessThanZeroJump ra target =>
    exact .of_conditional rfl rfl (by simp [raisedCauses]) (by simp [raisedCauses]) (by simp [raisedCauses])
  | loadAddress ra imm => exact execEnds_loadAddress ra imm s
  | loadByte ra addr =>
    exact .of_load rfl rfl rfl (by simp [raisedCauses]) (by simp [raisedCauses]) (by simp [raisedCauses])
  | loadWord ra addr =>
    exact .of_load rfl rfl rfl (by simp [raisedCauses]) (by simp [raisedCauses]) (by simp [raisedCauses])
  | move ra rb => exact execEnds_move ra rb s
  | multiply ra rb =>
    exact .of_binary rfl rfl rfl (by simp [raisedCauses]) (by simp [raisedCauses]) (by simp [raisedCauses])
      (fun _ _ _ _ h => mayRaise_of_ovf_alone (by simp [raisedCauses]) h)
  | nonZeroJump ra target =>
    exact .of_conditional rfl rfl (by simp [raisedCauses]) (by simp [raisedCauses]) (by simp [raisedCauses])
  | logicalOr ra rb =>
    exact .of_binary rfl rfl rfl (by simp [raisedCauses]) (by simp [raisedCauses]) (by simp [raisedCauses])
      (fun _ _ _ _ h => by cases h)
  | outputASCII => exact .of_output rfl (.inl rfl) (by simp [raisedCauses]) (by simp [raisedCauses])
  | outputInteger => exact .of_output rfl (.inr rfl) (by simp [raisedCauses]) (by simp [raisedCauses])
  | storeByte ra addr =>
    exact .of_store rfl rfl (by simp [raisedCauses]) (by simp [raisedCauses]) (by simp [raisedCauses]) (by simp [raisedCauses])
  | storeWord ra addr =>
    exact .of_store rfl rfl (by simp [raisedCauses]) (by simp [raisedCauses]) (by simp [raisedCauses]) (by simp [raisedCauses])
  | subtract ra rb =>
    exact .of_binary rfl rfl rfl (by simp [raisedCauses]) (by simp [raisedCauses]) (by simp [raisedCauses])
      (fun _ _ _ _ h => mayRaise_of_ovf_alone (by simp [raisedCauses]) h)
  | endRun => exact .halt rfl rfl

end Sys2Proof.Machine
end

