-- ==== Sys2Proof/Laws/PerInstr.lean ====
section
/-! SUPPORT. The families of statements about every instruction as syntax, one lemma per constructor of `Instr`. -/

namespace Sys2Proof.Laws

/-- The instruction that a record's mnemonic and words stand for is the instruction whose record it is (30_encoding.md R65):
no operand word is dropped or swapped. -/
def FieldsRoundTrip.Statement (i : Instr) : Prop := instrOf i.mnemonic i.wordA i.wordB = i

theorem FieldsRoundTrip.add (ra rb : Word) : FieldsRoundTrip.Statement (.add ra rb) := rfl
theorem FieldsRoundTrip.addImmediate (ra imm : Word) : FieldsRoundTrip.Statement (.addImmediate ra imm) := rfl
theorem FieldsRoundTrip.logicalAnd (ra rb : Word) : FieldsRoundTrip.Statement (.logicalAnd ra rb) := rfl
theorem FieldsRoundTrip.compare (ra rb : Word) : FieldsRoundTrip.Statement (.compare ra rb) := rfl
theorem FieldsRoundTrip.compareZeroJump (ra target : Word) : FieldsRoundTrip.Statement (.compareZeroJump ra target) := rfl
theorem FieldsRoundTrip.convertASCIIToInteger : FieldsRoundTrip.Statement .convertASCIIToInteger := rfl
theorem FieldsRoundTrip.convertIntegerToASCII : FieldsRoundTrip.Statement .convertIntegerToASCII := rfl
theorem FieldsRoundTrip.divide (ra rb : Word) : FieldsRoundTrip.Statement (.divide ra rb) := rfl
theorem FieldsRoundTrip.greaterThanZeroJump (ra target : Word) :
    FieldsRoundTrip.Statement (.greaterThanZeroJump ra target) := rfl
theorem FieldsRoundTrip.inputASCII : FieldsRoundTrip.Statement .inputASCII := rfl
theorem FieldsRoundTrip.inputInteger : FieldsRoundTrip.Statement .inputInteger := rfl
theorem FieldsRoundTrip.jump (target : Word) : FieldsRoundTrip.Statement (.jump target) := rfl
theorem FieldsRoundTrip.jumpRelative (ra : Word) : FieldsRoundTrip.Statement (.jumpRelative ra) := rfl
theorem FieldsRoundTrip.lessThanZeroJump (ra target : Word) : FieldsRoundTrip.Statement (.lessThanZeroJump ra target) := rfl
theorem FieldsRoundTrip.loadAddress (ra imm : Word) : FieldsRoundTrip.Statement (.loadAddress ra imm) := rfl
theorem FieldsRoundTrip.loadByte (ra addr : Word) : FieldsRoundTrip.Statement (.loadByte ra addr) := rfl
theorem FieldsRoundTrip.loadWord (ra addr : Word) : FieldsRoundTrip.Statement (.loadWord ra addr) := rfl
theorem FieldsRoundTrip.move (ra rb : Word) : FieldsRoundTrip.Statement (.move ra rb) := rfl
theorem FieldsRoundTrip.multiply (ra rb : Word) : FieldsRoundTrip.Statement (.multiply ra rb) := rfl
theorem FieldsRoundTrip.nonZeroJump (ra target : Word) : FieldsRoundTrip.Statement (.nonZeroJump ra target) := rfl
theorem FieldsRoundTrip.logicalOr (ra rb : Word) : FieldsRoundTrip.Statement (.logicalOr ra rb) := rfl
theorem FieldsRoundTrip.outputASCII : FieldsRoundTrip.Statement .outputASCII := rfl
theorem FieldsRoundTrip.outputInteger : FieldsRoundTrip.Statement .outputInteger := rfl
theorem FieldsRoundTrip.storeByte (ra addr : Word) : FieldsRoundTrip.Statement (.storeByte ra addr) := rfl
theorem FieldsRoundTrip.storeWord (ra addr : Word) : FieldsRoundTrip.Statement (.storeWord ra addr) := rfl
theorem FieldsRoundTrip.subtract (ra rb : Word) : FieldsRoundTrip.Statement (.subtract ra rb) := rfl
theorem FieldsRoundTrip.endRun : FieldsRoundTrip.Statement .endRun := rfl

end Sys2Proof.Laws
end

