-- ==== Sys2Proof/Laws/Step.lean ====
section
/-! SUPPORT. Everything a step can do, said once. -/

namespace Sys2Proof.Machine

/-- Everything an instruction step can do (42_control_transfer.md R97). -/
theorem instructionStep_cases (s : State) :
    (s.inBounds s.pc Config.recordBytes = false ∧
      instructionStep s = .next (s.takeFault 0 (.fetchOutOfBounds s.pc))) ∨
    (∃ r, r = Record.ofBytes (Memory.readBytes s.mem s.pc.toNat Config.recordBytes) ∧
      s.inBounds s.pc Config.recordBytes = true ∧ decodeRecord s.cfg.opcodes r = none ∧
      instructionStep s = .next (s.takeFault r.op (.unknownOpcode r.op))) ∨
    (∃ r i, r = Record.ofBytes (Memory.readBytes s.mem s.pc.toNat Config.recordBytes) ∧
      s.inBounds s.pc Config.recordBytes = true ∧ decodeRecord s.cfg.opcodes r = some i ∧
      instructionStep s = exec i s) := by
  rcases fetch_cases s with ⟨h, hf⟩ | ⟨h, hf⟩
  · cases hd : decodeRecord s.cfg.opcodes (Record.ofBytes (Memory.readBytes s.mem s.pc.toNat Config.recordBytes)) with
    | none => exact .inr (.inl ⟨_, rfl, h, hd, by simp only [instructionStep, hf, hd]⟩)
    | some i => exact .inr (.inr ⟨_, i, rfl, h, hd, by simp only [instructionStep, hf, hd]⟩)
  · exact .inl ⟨h, by simp only [instructionStep, hf]⟩

/-- Everything a step can do: an instruction, the completion of an input hold, a host command, or none is enabled. -/
theorem step_cases (s : State) :
    (s.status = .running ∧ s.pending = none ∧ step s = instructionStep s) ∨
    (∃ k, s.status = .running ∧ s.pending = some k ∧ s.answers = [] ∧ step s = .fault (.inputUnanswered k)) ∨
    (∃ k a rest, s.status = .running ∧ s.pending = some k ∧ s.answers = a :: rest ∧
      step s = .next (s.completeInput k a rest)) ∨
    (s.status ≠ .running ∧ s.commands = [] ∧ step s = .fault (.noStepEnabled s.status)) ∨
    (∃ c rest, s.status ≠ .running ∧ s.commands = c :: rest ∧
      step s = .next ({ s with commands := rest }.perform c)) := by
  have command : s.status ≠ .running → step s = commandStep s := by
    intro h
    unfold step coreStep
    split <;> first | rfl | contradiction
  by_cases hs : s.status = .running
  · cases hp : s.pending with
    | none => exact .inl ⟨hs, rfl, by simp only [step, coreStep, hs, hp]⟩
    | some k =>
      cases ha : s.answers with
      | nil => exact .inr (.inl ⟨k, hs, rfl, rfl, by simp only [step, coreStep, hs, hp, holdStep, ha]⟩)
      | cons a rest =>
        exact .inr (.inr (.inl ⟨k, a, rest, hs, rfl, rfl, by simp only [step, coreStep, hs, hp, holdStep, ha]⟩))
  · cases hc : s.commands with
    | nil => exact .inr (.inr (.inr (.inl ⟨hs, rfl, by rw [command hs]; simp only [commandStep, hc]⟩)))
    | cons c rest => exact .inr (.inr (.inr (.inr ⟨c, rest, hs, rfl, by rw [command hs]; simp only [commandStep, hc]⟩)))

/-- Everything the completion of an input hold can do (43_io.md R111 to R113). -/
theorem completeInput_cases (s : State) (k : InputKind) (a : Answer) (rest : List Answer) :
    ((s.receive k a).fits ((s.receive k a).pc.toInt + 12) = true ∧
      s.completeInput k a rest =
        { (s.receive k a).writeReg (s.receive k a).cfg.idxPc (wrap32 ((s.receive k a).pc.toInt + 12)) with
          pending := none, answers := rest }) ∨
    ((s.receive k a).fits ((s.receive k a).pc.toInt + 12) = false ∧
      s.completeInput k a rest = s.takeFault (s.cfg.opcodes.opcode (inputMnemonic k)) .arithmeticOverflow) := by
  rcases advance_cases (s.receive k a) with ⟨h, h'⟩ | ⟨h, h'⟩
  · exact .inl ⟨h, by simp only [State.completeInput, h']⟩
  · exact .inr ⟨h, by simp only [State.completeInput, h']⟩

/-- Everything a host command can do (70_reset_and_hazards.md R143 to R146). -/
theorem perform_cases (s : State) (c : Command) :
    (∃ image, c = .load image ∧ image.length ≤ s.cfg.memSize ∧ s.perform c = s.loadImage image) ∨
    (∃ image, c = .load image ∧ s.cfg.memSize < image.length ∧ s.perform c = s.rejectImage image) ∨
    (∃ start, c = .run start ∧ s.status = .loaded ∧
      s.perform c = { s.writeReg s.cfg.idxPc start with pending := none, status := .running }) ∨
    (∃ start, c = .run start ∧ s.status ≠ .loaded ∧ s.perform c = s) := by
  cases c with
  | load image =>
    by_cases h : image.length ≤ s.cfg.memSize
    · exact .inl ⟨image, rfl, h, by simp only [State.perform, State.load, if_pos h]⟩
    · exact .inr (.inl ⟨image, rfl, by omega, by simp only [State.perform, State.load, if_neg h]⟩)
  | run start =>
    by_cases h : s.status = .loaded
    · exact .inr (.inr (.inl ⟨start, rfl, h, by simp only [State.perform, State.run, if_pos h]⟩))
    · exact .inr (.inr (.inr ⟨start, rfl, h, by simp only [State.perform, State.run, if_neg h]⟩))

end Sys2Proof.Machine
end

