-- ==== Sys2Proof/Tests/Slice0.lean ====
section
/-! SUPPORT. The model's own tests: the checks of WellFormed, the decoding of every constructor, one or two steps of each
instruction, and for each obligation with hypotheses a state that meets them. Expected results are those of
95_test_vectors.md, whose vector each test names, or are worked out from the rule it names. -/

namespace Sys2Proof.Tests

open Sys2Proof Sys2Proof.Machine

/-! ### Helpers -/

/-- A core in a run, in the reference configuration, with its record at 24 and these registers written. -/
def ready (regs : List (RegIdx × Word)) : State :=
  regs.foldl (fun s c => s.writeReg c.1 c.2) (State.writeReg { State.reset with status := .running } 12 24)

/-- The same under `OVERFLOW_POLICY = wrap`. -/
def readyWrap (regs : List (RegIdx × Word)) : State :=
  { ready regs with cfg := { Config.reference with overflow := .wrap } }

/-- The next state, if there is one. -/
def after : Outcome → Option State
  | .next t => some t
  | .fault _ => none
  | .refused _ => none

/-- A register of the next state, and its `pc`. -/
def regAndPc (r : RegIdx) (o : Outcome) : Option (Word × Word) := (after o).map fun t => (t.x.get r, t.pc)

/-- The status and the fault record of the next state. -/
def faultOf (o : Outcome) : Option (Status × FaultRecord) := (after o).map fun t => (t.status, t.fault)

/-- The bytes of the next state at some addresses. -/
def bytesAt (addrs : List Nat) (o : Outcome) : Option (List Byte) :=
  (after o).map fun t => addrs.map (Memory.read t.mem)

/-- A faulted outcome of an instruction at 24. -/
def faultAt24 (cause : Cause) (opcode detail : Word) : Option (Status × FaultRecord) :=
  some (.faulted, { cause := cause, pc := 24, opcode := opcode, detail := detail })

/-- Both registers of a two-register test written. -/
def pair (a b : Word) : State := ready [(1, a), (2, b)]

/-- Words and states that meet each clause of `OperandFaults` for an RR instruction that reads both registers: A invalid, B
invalid at its boundary, the first read unwritten, the second read unwritten. -/
abbrev MeetsOperandClausesRR (c : Word → Word → Instr) : Prop :=
  ((c 13 2).regA = some 13 ∧ validRegWord 13 = false ∧ (c (-1) 2).regA = some (-1) ∧ validRegWord (-1) = false) ∧
  ((c 12 13).regA.all validRegWord = true ∧ (c 12 13).regB = some 13) ∧
  ((c 1 2).wellFormed = true ∧ readWords (c 1 2) = [] ++ regWord 1 :: [regWord 2] ∧ (ready []).readable 1 = false) ∧
  (readWords (c 1 2) = [regWord 1] ++ regWord 2 :: [] ∧
    (∀ q, regWord q ∈ [regWord 1] → (ready [(1, 5)]).readable q = true) ∧ (ready [(1, 5)]).readable 2 = false)

/-- The same for an instruction whose only register is A. -/
abbrev MeetsOperandClausesA (c : Word → Instr) : Prop :=
  ((c 13).regA = some 13 ∧ validRegWord 13 = false ∧ (c (-1)).regA = some (-1) ∧ validRegWord (-1) = false) ∧
  ((c 1).wellFormed = true ∧ readWords (c 1) = [] ++ regWord 1 :: [] ∧ (ready []).readable 1 = false)

/-! ### WellFormed refuses an ill-formed term at each of its checks (30_encoding.md R71) -/

theorem test_wellFormed_refuses_A_13 : (Instr.add 13 2).wellFormed = false := by decide
theorem test_wellFormed_refuses_A_negative : (Instr.loadByte (-1) 0).wellFormed = false := by decide
theorem test_wellFormed_refuses_B_20 : (Instr.move 1 20).wellFormed = false := by decide
theorem test_wellFormed_refuses_B_negative : (Instr.add 1 (-1)).wellFormed = false := by decide
theorem test_wellFormed_accepts_0_and_12 : (Instr.move 0 12).wellFormed = true := by decide
theorem test_wellFormed_asks_nothing_of_an_immediate : (Instr.addImmediate 12 (-99)).wellFormed = true := by decide
theorem test_wellFormed_asks_nothing_of_a_target : (Instr.jump (-1)).wellFormed = true := by decide

/-! ### Decoding: records written out from R63 and the reference map of R67 -/

theorem test_decode_arithmetic :
    decode OpcodeMap.reference [0x01, 0, 0, 0, 0x01, 0, 0, 0, 0x02, 0, 0, 0] = .ok (.add 1 2) ∧
    decode OpcodeMap.reference [0x02, 0, 0, 0, 0, 0, 0, 0, 0xF6, 0xFF, 0xFF, 0xFF] = .ok (.addImmediate 0 (-10)) ∧
    decode OpcodeMap.reference [0x1A, 0, 0, 0, 0x01, 0, 0, 0, 0x02, 0, 0, 0] = .ok (.subtract 1 2) ∧
    decode OpcodeMap.reference [0x13, 0, 0, 0, 0x01, 0, 0, 0, 0x02, 0, 0, 0] = .ok (.multiply 1 2) ∧
    decode OpcodeMap.reference [0x08, 0, 0, 0, 0x01, 0, 0, 0, 0x02, 0, 0, 0] = .ok (.divide 1 2) := by
  decide

theorem test_decode_compare_and_logic :
    decode OpcodeMap.reference [0x04, 0, 0, 0, 0x01, 0, 0, 0, 0, 0, 0, 0] = .ok (.compare 1 0) ∧
    decode OpcodeMap.reference [0x03, 0, 0, 0, 0x01, 0, 0, 0, 0x02, 0, 0, 0] = .ok (.logicalAnd 1 2) ∧
    decode OpcodeMap.reference [0x15, 0, 0, 0, 0x01, 0, 0, 0, 0x02, 0, 0, 0] = .ok (.logicalOr 1 2) := by
  decide

theorem test_decode_moves :
    decode OpcodeMap.reference [0x12, 0, 0, 0, 0x01, 0, 0, 0, 0x0C, 0, 0, 0] = .ok (.move 1 12) ∧
    decode OpcodeMap.reference [0x0F, 0, 0, 0, 0x0B, 0, 0, 0, 0x18, 0, 0, 0] = .ok (.loadAddress 11 24) := by
  decide

theorem test_decode_loads_and_stores :
    decode OpcodeMap.reference [0x10, 0, 0, 0, 0x02, 0, 0, 0, 0xE8, 0x03, 0, 0] = .ok (.loadByte 2 1000) ∧
    decode OpcodeMap.reference [0x11, 0, 0, 0, 0x04, 0, 0, 0, 0xD0, 0x07, 0, 0] = .ok (.loadWord 4 2000) ∧
    decode OpcodeMap.reference [0x18, 0, 0, 0, 0x01, 0, 0, 0, 0xE8, 0x03, 0, 0] = .ok (.storeByte 1 1000) ∧
    decode OpcodeMap.reference [0x19, 0, 0, 0, 0x01, 0, 0, 0, 0x7F, 0x96, 0x98, 0] = .ok (.storeWord 1 9999999) := by
  decide

theorem test_decode_transfers :
    decode OpcodeMap.reference [0x0C, 0, 0, 0, 0x30, 0, 0, 0, 0xE7, 0x03, 0, 0] = .ok (.jump 48) ∧
    decode OpcodeMap.reference [0x0D, 0, 0, 0, 0x02, 0, 0, 0, 0, 0, 0, 0] = .ok (.jumpRelative 2) ∧
    decode OpcodeMap.reference [0x05, 0, 0, 0, 0, 0, 0, 0, 0x24, 0, 0, 0] = .ok (.compareZeroJump 0 36) ∧
    decode OpcodeMap.reference [0x14, 0, 0, 0, 0x01, 0, 0, 0, 0x24, 0, 0, 0] = .ok (.nonZeroJump 1 36) ∧
    decode OpcodeMap.reference [0x09, 0, 0, 0, 0x01, 0, 0, 0, 0x48, 0, 0, 0] = .ok (.greaterThanZeroJump 1 72) ∧
    decode OpcodeMap.reference [0x0E, 0, 0, 0, 0x03, 0, 0, 0, 0x18, 0, 0, 0] = .ok (.lessThanZeroJump 3 24) ∧
    decode OpcodeMap.reference [0x1B, 0, 0, 0, 0x4D, 0, 0, 0, 0xFB, 0xFF, 0xFF, 0xFF] = .ok .endRun := by
  decide

theorem test_decode_console :
    decode OpcodeMap.reference [0x06, 0, 0, 0, 0, 0, 0, 0, 0, 0, 0, 0] = .ok (.convertASCIIToInteger) ∧
    decode OpcodeMap.reference [0x07, 0, 0, 0, 0, 0, 0, 0, 0, 0, 0, 0] = .ok (.convertIntegerToASCII) ∧
    decode OpcodeMap.reference [0x0A, 0, 0, 0, 0, 0, 0, 0, 0, 0, 0, 0] = .ok (.inputASCII) ∧
    decode OpcodeMap.reference [0x0B, 0, 0, 0, 0, 0, 0, 0, 0, 0, 0, 0] = .ok (.inputInteger) ∧
    decode OpcodeMap.reference [0x16, 0, 0, 0, 0, 0, 0, 0, 0, 0, 0, 0] = .ok (.outputASCII) ∧
    decode OpcodeMap.reference [0x17, 0, 0, 0, 0x05, 0, 0, 0, 0x09, 0, 0, 0] = .ok (.outputInteger) := by
  decide

/-- 95_test_vectors.md 2.7: OP 0, 28 and -1 are unknown. -/
theorem test_decode_refuses_unknown_opcodes :
    decode OpcodeMap.reference [0, 0, 0, 0, 0x63, 0, 0, 0, 0x63, 0, 0, 0] = .error (.unknownOpcode 0) ∧
    decode OpcodeMap.reference [0x1C, 0, 0, 0, 0, 0, 0, 0, 0, 0, 0, 0] = .error (.unknownOpcode 28) ∧
    decode OpcodeMap.reference [0xFF, 0xFF, 0xFF, 0xFF, 0, 0, 0, 0, 0, 0, 0, 0] = .error (.unknownOpcode (-1)) := by
  decide

/-- The whole OP word is compared: a bit above the first byte makes the opcode unknown (R67). -/
theorem test_decode_compares_the_whole_opcode_word :
    decode OpcodeMap.reference [1, 1, 0, 0, 1, 0, 0, 0, 2, 0, 0, 0] = .error (.unknownOpcode 257) := by decide

theorem test_decode_refuses_other_lengths : decode OpcodeMap.reference [1, 0, 0, 0] = .error .wrongLength := by decide

theorem test_decodeTableWord_end : decodeTableWord 96 0x1B = some .endRun := by decide

/-! ### Steps: arithmetic, logic and moves (95_test_vectors.md 2.1 to 2.3) -/

theorem test_add_writes_pc_as_a_register : regAndPc 12 (exec (.add 12 1) (ready [(1, 24)])) = some (60, 60) := by decide
theorem test_add_wraps : regAndPc 1 (exec (.add 1 2) (readyWrap [(1, 2147483647), (2, 1)])) =
  some (-2147483648, 36) := by decide
theorem test_addImmediate_overflows :
    faultOf (exec (.addImmediate 0 (-2147483648)) (ready [(0, -1)])) = faultAt24 .arithmeticOverflow 2 0 := by decide
theorem test_addImmediate_negative : regAndPc 0 (exec (.addImmediate 0 (-10)) (ready [(0, 5)])) =
  some (-5, 36) := by decide
theorem test_subtract : regAndPc 1 (exec (.subtract 1 2) (pair 3 10)) = some (-7, 36) := by decide
theorem test_subtract_overflows :
    faultOf (exec (.subtract 1 2) (pair 0 (-2147483648))) = faultAt24 .arithmeticOverflow 26 0 := by decide
theorem test_multiply_wraps :
    regAndPc 1 (exec (.multiply 1 2) (readyWrap [(1, 46341), (2, 46341)])) = some (-2147479015, 36) := by decide
theorem test_multiply : regAndPc 1 (exec (.multiply 1 2) (pair (-6) 7)) = some (-42, 36) := by decide
theorem test_divide_truncates : regAndPc 1 (exec (.divide 1 2) (pair (-7) 2)) = some (-3, 36) := by decide
theorem test_divide_overflows_under_wrap :
    (faultOf (exec (.divide 1 2) (readyWrap [(1, -2147483648), (2, -1)]))) =
      faultAt24 .arithmeticOverflow 8 0 := by decide
theorem test_compare_at_the_edge : regAndPc 1 (exec (.compare 1 2) (pair (-1) 2147483647)) = some (-1, 36) := by decide
theorem test_compare_wraps :
    regAndPc 1 (exec (.compare 1 2) (readyWrap [(1, -2147483648), (2, 1)])) = some (1, 36) := by decide
theorem test_and_is_logical : regAndPc 1 (exec (.logicalAnd 1 2) (pair 2 4)) = some (1, 36) := by decide
theorem test_or_is_logical : regAndPc 1 (exec (.logicalOr 1 2) (pair 0 (-5))) = some (1, 36) := by decide
theorem test_or_of_zeros : regAndPc 1 (exec (.logicalOr 1 2) (pair 0 0)) = some (0, 36) := by decide
theorem test_move_reads_pc : regAndPc 1 (exec (.move 1 12) (ready [])) = some (24, 36) := by decide
theorem test_move_unwritten : faultOf (exec (.move 1 2) (ready [])) = faultAt24 .uninitialisedRegister 18 2 := by decide
theorem test_loadAddress_to_pc : regAndPc 12 (exec (.loadAddress 12 48) (ready [])) = some (60, 60) := by decide
theorem test_loadAddress_invalid : faultOf (exec (.loadAddress 13 0) (ready [])) =
  faultAt24 .invalidRegister 15 13 := by decide

/-! ### Steps: loads and stores (2.4) -/

theorem test_loadByte_last :
    regAndPc 2 (exec (.loadByte 2 9999999) { ready [] with mem := [(9999999, 0x7F)] }) = some (127, 36) := by decide
theorem test_loadByte_past_the_end :
    faultOf (exec (.loadByte 2 10000000) (ready [])) = faultAt24 .dataOutOfBounds 16 10000000 := by decide
theorem test_loadWord_is_zero_extended :
    regAndPc 4 (exec (.loadWord 4 2001) { ready [] with mem := [(2001, 0x01), (2002, 0x80)] }) =
      some (32769, 36) := by decide
theorem test_loadWord_past_the_end :
    faultOf (exec (.loadWord 4 9999999) (ready [])) = faultAt24 .dataOutOfBounds 17 9999999 := by decide
theorem test_storeByte_truncates : bytesAt [999, 1000, 1001] (exec (.storeByte 1 1000) (ready [(1, 300)])) =
  some [0, 0x2C, 0] := by
  decide
theorem test_storeByte_reads_before_the_bounds :
    faultOf (exec (.storeByte 1 10000000) (ready [])) = faultAt24 .uninitialisedRegister 24 1 := by decide
theorem test_storeWord_is_little_endian :
    bytesAt [2000, 2001, 2002, 2003] (exec (.storeWord 1 2001) (ready [(1, 0xABCD)])) =
      some [0, 0xCD, 0xAB, 0] := by decide
theorem test_storeWord_negative_address :
    faultOf (exec (.storeWord 1 (-2)) (ready [(1, 1)])) = faultAt24 .dataOutOfBounds 25 (-2) := by decide

/-! ### Steps: control transfer (2.5) -/

theorem test_jump : regAndPc 12 (exec (.jump 7) (ready [])) = some (7, 7) := by decide
theorem test_jump_overflows : faultOf (exec (.jump (-2147483648)) (ready [])) =
  faultAt24 .arithmeticOverflow 12 0 := by decide
theorem test_jumpRelative_is_absolute : regAndPc 2 (exec (.jumpRelative 2) (ready [(2, 120)])) =
  some (120, 120) := by decide
theorem test_jumpRelative_wraps :
    regAndPc 2 (exec (.jumpRelative 2) (readyWrap [(2, -2147483643)])) = some (-2147483643, -2147483643) := by decide
theorem test_compareZeroJump_taken : regAndPc 0 (exec (.compareZeroJump 0 36) (ready [(0, 0)])) =
  some (0, 36) := by decide
theorem test_compareZeroJump_not_taken_does_not_overflow :
    regAndPc 0 (exec (.compareZeroJump 0 (-2147483648)) (ready [(0, 1)])) = some (1, 36) := by decide
theorem test_nonZeroJump_negative : regAndPc 1 (exec (.nonZeroJump 1 72) (ready [(1, -1)])) = some (-1, 72) := by decide
theorem test_nonZeroJump_zero : regAndPc 1 (exec (.nonZeroJump 1 72) (ready [(1, 0)])) = some (0, 36) := by decide
theorem test_greaterThanZeroJump_is_signed :
    regAndPc 1 (exec (.greaterThanZeroJump 1 72) (ready [(1, -2147483648)])) = some (-2147483648, 36) := by decide
theorem test_greaterThanZeroJump_taken :
    regAndPc 1 (exec (.greaterThanZeroJump 1 72) (ready [(1, 1)])) = some (1, 72) := by decide
theorem test_lessThanZeroJump_taken : regAndPc 3 (exec (.lessThanZeroJump 3 72) (ready [(3, -1)])) =
  some (-1, 72) := by decide
theorem test_lessThanZeroJump_zero : regAndPc 3 (exec (.lessThanZeroJump 3 72) (ready [(3, 0)])) =
  some (0, 36) := by decide
theorem test_end_halts : (after (exec .endRun (ready []))).map (fun t => (t.status, t.pc)) =
  some (.halted, 24) := by decide

/-! ### Steps: the console (2.6) -/

theorem test_convertASCIIToInteger : regAndPc 0 (exec .convertASCIIToInteger (ready [(0, 57)])) =
  some (9, 36) := by decide
theorem test_convertASCIIToInteger_sentinel :
    regAndPc 0 (exec .convertASCIIToInteger (readyWrap [(0, -2147483648)])) = some (-1, 36) := by decide
theorem test_convertIntegerToASCII : regAndPc 0 (exec .convertIntegerToASCII (ready [(0, 7)])) =
  some (55, 36) := by decide
theorem test_convertIntegerToASCII_sentinel :
    regAndPc 0 (exec .convertIntegerToASCII (ready [(0, 10)])) = some (48, 36) := by decide
theorem test_inputASCII_requests :
    (after (exec .inputASCII (ready []))).map (fun t => (t.pending, t.pc)) = some (some .char, 24) := by decide
theorem test_inputASCII_failure_leaves_io_unwritten :
    (after (step { ready [] with pending := some .char, answers := [.fail] })).map
      (fun t => (t.written.get 0, t.out, t.pc, t.pending)) = some (false, [.diag .char], 36, none) := by decide
theorem test_inputInteger_requests :
    (after (exec .inputInteger (ready []))).map (fun t => (t.pending, t.pc)) = some (some .int, 24) := by decide
theorem test_inputInteger_receives :
    (after (step { ready [] with pending := some .int, answers := [.ok (-42), .fail] })).map
      (fun t => (t.x.get 0, t.written.get 0, t.pc, t.answers)) = some (-42, true, 36, [.fail]) := by decide
theorem test_outputASCII_low_byte :
    (after (exec .outputASCII (ready [(0, 321)]))).map (fun t => (t.out, t.pc)) = some ([.byte 0x41], 36) := by decide
theorem test_outputInteger :
    (after (exec .outputInteger (ready [(0, -5)]))).map (fun t => (t.out, t.pc)) = some ([.int (-5)], 36) := by decide
theorem test_outputInteger_unwritten :
    faultOf (exec .outputInteger (ready [])) = faultAt24 .uninitialisedRegister 23 0 := by decide

/-! ### Steps: fetch, load, run (2.7) -/

theorem test_step_fetches_and_runs :
    (after (step (State.reset.withFetchWord 96 0x00000005000000000000000F))).map (fun t => (t.x.get 0, t.pc)) =
      some (5, 12) := by decide
theorem test_fetch_past_the_end :
    faultOf (step ((ready []).writeReg 12 9999989)) =
      some (.faulted, { cause := .fetchOutOfBounds, pc := 9999989, opcode := 0, detail := 9999989 }) := by decide
theorem test_fetch_of_the_last_record :
    faultOf (step ((ready []).writeReg 12 9999988)) =
      some (.faulted, { cause := .unknownOpcode, pc := 9999988, opcode := 0, detail := 0 }) := by decide
theorem test_load_and_run :
    (after (step { State.reset with commands := [.load [0x1B, 0, 7], .run 12] })).map
      (fun t => (t.status, t.mem, t.commands)) = some (.loaded, [(0, 0x1B), (2, 7)], [.run 12]) := by decide
theorem test_run_after_halt_is_refused :
    after (step { State.reset with status := .halted, commands := [.run 0] }) =
      some { State.reset with status := .halted } := by decide

/-- Reading the record of the store at 24 after a byte is stored over the next one (P6). -/
theorem test_store_changes_the_next_fetch :
    (after (exec (.storeByte 1 36) (ready [(1, 27)]))).map (fun t => faultOf (step t)) =
      some (some (.halted, FaultRecord.zero)) := by decide

/-! ### Memory keeps its canonical form -/

theorem test_writing_zero_removes_the_entry : Memory.write [(3, 1), (5, 2)] 3 0 = [(5, 2)] := by decide
theorem test_write_keeps_the_order : Memory.write [(3, 1), (5, 2)] 4 9 = [(3, 1), (4, 9), (5, 2)] := by decide

/-! ### Witnesses: for each obligation with hypotheses, states and operands that meet them -/

theorem test_witness_decoding_an_encoded_instruction : OpcodeMap.reference.injective = true := by decide

theorem test_witness_only_unknown_opcodes_are_illegal : (List.replicate 12 (0 : Byte)).length = 12 := by decide

/-- Two records of `Jump 48` that differ in the unused word, and two of `End` that differ in both. -/
theorem test_witness_unused_operand_words :
    (∀ m : Mnemonic, OpcodeMap.reference.opcode m = 12 → Mnemonic.usesB m = true → (999 : Word) = 0) ∧
    (∀ m : Mnemonic, OpcodeMap.reference.opcode m = 27 → Mnemonic.usesA m = true → (77 : Word) = 0) := by
  constructor <;> (intro m; cases m <;> decide)

/-- `End` at 24, and at 9999988, the last record that fits. -/
theorem test_witness_step_runs_the_decoded_instruction :
    (ready []).status = .running ∧ (ready []).pending = none ∧ 0 ≤ (ready []).pc.toInt ∧
    (ready []).pc.toInt + 12 ≤ ((ready []).cfg.memSize : Int) ∧
    decode (ready []).cfg.opcodes (Memory.readBytes [(24, 0x1B)] (ready []).pc.toNat 12) = .ok .endRun ∧
    ((ready []).writeReg 12 9999988).pc.toInt + 12 ≤ ((ready []).cfg.memSize : Int) ∧
    decode (ready []).cfg.opcodes (Memory.readBytes [(9999988, 0x1B)] 9999988 12) = .ok .endRun := by decide

theorem test_witness_fetch_out_of_bounds :
    ((ready []).writeReg 12 (-1)).status = .running ∧ ((ready []).writeReg 12 (-1)).pending = none ∧
    ((ready []).writeReg 12 (-1)).pc.toInt < 0 ∧
    (((ready []).writeReg 12 9999989).cfg.memSize : Int) < ((ready []).writeReg 12 9999989).pc.toInt + 12 := by decide

/-- The zero record at 24, in a core whose memory lists nothing. -/
theorem test_witness_unknown_opcode :
    (ready []).status = .running ∧ (ready []).pending = none ∧ 0 ≤ (ready []).pc.toInt ∧
    (ready []).pc.toInt + 12 ≤ ((ready []).cfg.memSize : Int) ∧
    0 = (Record.ofBytes (Memory.readBytes (ready []).mem (ready []).pc.toNat 12)).op ∧
    (∀ m, (ready []).cfg.opcodes.opcode m ≠ 0) := by
  refine ⟨by decide, by decide, by decide, by decide, by decide, fun m => ?_⟩
  cases m <;> decide

theorem test_witness_stopped_core : State.reset.status ≠ .running ∧ State.reset.commands = [] := by decide

theorem test_witness_terminal_status :
    (after (step { State.reset with status := .halted, commands := [.run 0] })).isSome = true ∧
    (after (step { State.reset with status := .faulted, commands := [.load []] })).isSome = true ∧
    (after (step { State.reset with status := .loadError, commands := [.load []] })).isSome = true := by decide

theorem test_witness_parameters_never_change : (after (step { State.reset with commands := [.run 0] })).isSome =
  true := by
  decide

theorem test_witness_add :
    MeetsOperandClausesRR .add ∧
    ((pair 2147483647 1).readable 1 = true ∧ (pair 2147483647 1).readable 2 = true ∧
      (pair 2147483647 1).fits ((pair 2147483647 1).valueOf 1 + (pair 2147483647 1).valueOf 2) = false) ∧
    ((pair 2147483646 1).readable 1 = true ∧ (pair 2147483646 1).readable 2 = true ∧
      (pair 2147483646 1).fits ((pair 2147483646 1).valueOf 1 + (pair 2147483646 1).valueOf 2) = true ∧
      (pair 2147483646 1).advanceFits 1 (wrap32 ((pair 2147483646 1).valueOf 1 + (pair 2147483646 1).valueOf 2)) =
        true) := by decide

theorem test_witness_subtract :
    MeetsOperandClausesRR .subtract ∧
    ((pair (-2147483648) 1).readable 1 = true ∧ (pair (-2147483648) 1).readable 2 = true ∧
      (pair (-2147483648) 1).fits ((pair (-2147483648) 1).valueOf 1 - (pair (-2147483648) 1).valueOf 2) = false) ∧
    ((pair (-2147483647) 1).readable 1 = true ∧ (pair (-2147483647) 1).readable 2 = true ∧
      (pair (-2147483647) 1).fits ((pair (-2147483647) 1).valueOf 1 - (pair (-2147483647) 1).valueOf 2) = true ∧
      (pair (-2147483647) 1).advanceFits 1 
        (wrap32 ((pair (-2147483647) 1).valueOf 1 - (pair (-2147483647) 1).valueOf 2)) = true) := by decide

theorem test_witness_multiply :
    MeetsOperandClausesRR .multiply ∧
    ((pair 65536 65536).readable 1 = true ∧ (pair 65536 65536).readable 2 = true ∧
      (pair 65536 65536).fits ((pair 65536 65536).valueOf 1 * (pair 65536 65536).valueOf 2) = false) ∧
    ((pair (-2147483648) 1).readable 1 = true ∧ (pair (-2147483648) 1).readable 2 = true ∧
      (pair (-2147483648) 1).fits ((pair (-2147483648) 1).valueOf 1 * (pair (-2147483648) 1).valueOf 2) = true ∧
      (pair (-2147483648) 1).advanceFits 1 
        (wrap32 ((pair (-2147483648) 1).valueOf 1 * (pair (-2147483648) 1).valueOf 2)) = true) := by decide

theorem test_witness_compare :
    MeetsOperandClausesRR .compare ∧
    ((pair (-2147483648) 1).readable 1 = true ∧ (pair (-2147483648) 1).readable 2 = true ∧
      (pair (-2147483648) 1).fits ((pair (-2147483648) 1).valueOf 1 - (pair (-2147483648) 1).valueOf 2) = false) ∧
    ((pair (-1) 2147483647).readable 1 = true ∧ (pair (-1) 2147483647).readable 2 = true ∧
      (pair (-1) 2147483647).fits ((pair (-1) 2147483647).valueOf 1 - (pair (-1) 2147483647).valueOf 2) = true ∧
      (pair (-1) 2147483647).advanceFits 1 
        (wrap32 (wrap32 ((pair (-1) 2147483647).valueOf 1 - (pair (-1) 2147483647).valueOf 2)).toInt.sign) =
          true) := by decide

theorem test_witness_divide :
    MeetsOperandClausesRR .divide ∧
    ((pair 5 0).readable 1 = true ∧ (pair 5 0).readable 2 = true ∧ (pair 5 0).valueOf 2 = 0) ∧
    ((pair (-2147483648) (-1)).readable 1 = true ∧ (pair (-2147483648) (-1)).readable 2 = true ∧
      (pair (-2147483648) (-1)).valueOf 1 = -2147483648 ∧ (pair (-2147483648) (-1)).valueOf 2 = -1) ∧
    ((pair (-2147483648) 2).readable 1 = true ∧ (pair (-2147483648) 2).readable 2 = true ∧
      (pair (-2147483648) 2).valueOf 2 ≠ 0 ∧ ¬ ((pair (-2147483648) 2).valueOf 1 = -2147483648 ∧
        (pair (-2147483648) 2).valueOf 2 = -1) ∧
      (pair (-2147483648) 2).advanceFits 1 
        (wrap32 (((pair (-2147483648) 2).valueOf 1).tdiv ((pair (-2147483648) 2).valueOf 2))) = true) ∧
    (¬ ((pair (-2147483647) (-1)).valueOf 1 = -2147483648 ∧ (pair (-2147483647) (-1)).valueOf 2 = -1)) := by decide

theorem test_witness_and :
    MeetsOperandClausesRR .logicalAnd ∧
    ((pair 6 0).readable 1 = true ∧ (pair 6 0).readable 2 = true ∧
      (pair 6 0).advanceFits 1 (if (pair 6 0).valueOf 1 ≠ 0 ∧ (pair 6 0).valueOf 2 ≠ 0 then 1 else 0) = true) ∧
    ((pair (-1) (-2147483648)).readable 1 = true ∧ (pair (-1) (-2147483648)).readable 2 = true ∧
      (pair (-1) (-2147483648)).advanceFits 1 (if (pair (-1) (-2147483648)).valueOf 1 ≠ 0 ∧
        (pair (-1) (-2147483648)).valueOf 2 ≠ 0 then 1 else 0) = true) := by decide

theorem test_witness_or :
    MeetsOperandClausesRR .logicalOr ∧
    ((pair 0 0).readable 1 = true ∧ (pair 0 0).readable 2 = true ∧
      (pair 0 0).advanceFits 1 (if (pair 0 0).valueOf 1 ≠ 0 ∨ (pair 0 0).valueOf 2 ≠ 0 then 1 else 0) = true) ∧
    ((pair 0 (-5)).readable 1 = true ∧ (pair 0 (-5)).readable 2 = true ∧
      (pair 0 (-5)).advanceFits 1 (if (pair 0 (-5)).valueOf 1 ≠ 0 ∨ (pair 0 (-5)).valueOf 2 ≠ 0 then 1 else 0) =
        true) := by decide

theorem test_witness_move :
    ((Instr.move 13 2).regA = some 13 ∧ (Instr.move 12 13).regB = some 13 ∧ validRegWord 13 = false) ∧
    ((Instr.move 1 2).wellFormed = true ∧ readWords (.move 1 2) = [] ++ regWord 2 :: [] ∧ (ready []).readable 2 = false) ∧
    ((ready [(2, 42)]).readable 2 = true ∧ (ready [(2, 42)]).readable 1 = false ∧
      (ready [(2, 42)]).advanceFits 1 ((ready [(2, 42)]).x.get 2) = true) := by decide

theorem test_witness_addImmediate :
    MeetsOperandClausesA (.addImmediate · 0) ∧
    ((ready [(1, 2147483647)]).readable 1 = true ∧
      (ready [(1, 2147483647)]).fits ((ready [(1, 2147483647)]).valueOf 1 + (1 : Word).toInt) = false) ∧
    ((ready [(1, 2147483646)]).readable 1 = true ∧
      (ready [(1, 2147483646)]).fits ((ready [(1, 2147483646)]).valueOf 1 + (1 : Word).toInt) = true ∧
      (ready [(1, 2147483646)]).advanceFits 1 (wrap32 ((ready [(1, 2147483646)]).valueOf 1 + (1 : Word).toInt)) =
        true) := by decide

theorem test_witness_loadAddress :
    ((Instr.loadAddress 13 0).regA = some 13 ∧ validRegWord 13 = false) ∧
    (ready []).advanceFits 1 (-1) = true ∧
    (ready []).advanceFits 12 2147483635 = true := by decide

theorem test_witness_loadByte :
    ((Instr.loadByte 13 0).regA = some 13 ∧ validRegWord 13 = false) ∧
    (-1 : Word).toInt < 0 ∧
    ((ready []).cfg.memSize : Int) < (10000000 : Word).toInt + 1 ∧
    (0 ≤ (0 : Word).toInt ∧ (9999999 : Word).toInt + 1 ≤ ((ready []).cfg.memSize : Int) ∧
      (ready []).advanceFits 1 65535 = true) ∧
    (ready []).advanceFits 1 0 = true := by decide

theorem test_witness_loadWord :
    ((Instr.loadWord 13 0).regA = some 13 ∧ validRegWord 13 = false) ∧
    (-1 : Word).toInt < 0 ∧
    ((ready []).cfg.memSize : Int) < (9999999 : Word).toInt + 2 ∧
    (0 ≤ (0 : Word).toInt ∧ (9999998 : Word).toInt + 2 ≤ ((ready []).cfg.memSize : Int) ∧
      (ready []).advanceFits 1 65535 = true) ∧
    (ready []).advanceFits 1 0 = true := by decide

theorem test_witness_storeByte :
    MeetsOperandClausesA (.storeByte · 0) ∧
    (ready [(1, 300)]).readable 1 = true ∧
    (-1 : Word).toInt < 0 ∧
    ((ready [(1, 300)]).cfg.memSize : Int) < (10000000 : Word).toInt + 1 ∧
    (0 ≤ (0 : Word).toInt ∧ (9999999 : Word).toInt + 1 ≤ ((ready [(1, 300)]).cfg.memSize : Int) ∧
      (ready [(1, 300)]).plainAdvanceFits = true) := by decide

theorem test_witness_storeWord :
    MeetsOperandClausesA (.storeWord · 0) ∧
    (ready [(1, 300)]).readable 1 = true ∧
    (-1 : Word).toInt < 0 ∧
    ((ready [(1, 300)]).cfg.memSize : Int) < (9999999 : Word).toInt + 2 ∧
    (0 ≤ (0 : Word).toInt ∧ (9999998 : Word).toInt + 2 ≤ ((ready [(1, 300)]).cfg.memSize : Int) ∧
      (ready [(1, 300)]).plainAdvanceFits = true) := by decide

theorem test_witness_divide_rounds :
    (pair (-7) 2).readable 1 = true ∧ (pair (-7) 2).readable 2 = true ∧
    1 ≠ (pair (-7) 2).cfg.idxPc ∧ (pair (-7) 2).valueOf 2 ≠ 0 ∧
    ¬ ((pair (-7) 2).valueOf 1 = -2147483648 ∧ (pair (-7) 2).valueOf 2 = -1) ∧
    (pair (-7) 2).plainAdvanceFits = true := by decide

/-- Both differences fit, one of them at INT_MAX. -/
theorem test_witness_compare_is_antisymmetric :
    (pair (-2147483647) 0).readable 1 = true ∧ (pair (-2147483647) 0).readable 2 = true ∧
    1 ≠ (ready []).cfg.idxPc ∧ 2 ≠ (ready []).cfg.idxPc ∧
    -2147483648 ≤ (pair (-2147483647) 0).valueOf 1 - (pair (-2147483647) 0).valueOf 2 ∧
    (pair (-2147483647) 0).valueOf 1 - (pair (-2147483647) 0).valueOf 2 ≤ 2147483647 ∧
    -2147483648 ≤ (pair (-2147483647) 0).valueOf 2 - (pair (-2147483647) 0).valueOf 1 ∧
    (pair (-2147483647) 0).valueOf 2 - (pair (-2147483647) 0).valueOf 1 ≤ 2147483647 ∧
    (pair (-2147483647) 0).plainAdvanceFits = true := by decide

theorem test_witness_add_then_subtract :
    (pair 10 (-3)).readable 1 = true ∧ (pair 10 (-3)).readable 2 = true ∧ (1 : RegIdx) ≠ 2 ∧
    1 ≠ (pair 10 (-3)).cfg.idxPc ∧ 2 ≠ (pair 10 (-3)).cfg.idxPc ∧
    -2147483648 ≤ (pair 10 (-3)).valueOf 1 + (pair 10 (-3)).valueOf 2 ∧
    (pair 10 (-3)).valueOf 1 + (pair 10 (-3)).valueOf 2 ≤ 2147483647 ∧
    (pair 10 (-3)).valueOf (pair 10 (-3)).cfg.idxPc + 24 ≤ 2147483647 := by decide

theorem test_witness_loads_and_stores_have_no_other_effect :
    (after (exec (.loadByte 1 1000) (ready [(1, 7)]))).isSome = true ∧
    (after (exec (.loadWord 1 1000) (ready [(1, 7)]))).isSome = true ∧
    (after (exec (.storeByte 1 1000) (ready [(1, 7)]))).isSome = true ∧
    (after (exec (.storeWord 1 1000) (ready [(1, 7)]))).isSome = true := by decide

/-- The last byte and the last halfword of memory. -/
theorem test_witness_store_then_load :
    (ready [(1, -1)]).readable 1 = true ∧ 2 ≠ (ready [(1, -1)]).cfg.idxPc ∧ 0 ≤ (9999999 : Word).toInt ∧
    0 ≤ (9999998 : Word).toInt ∧ (ready [(1, -1)]).valueOf (ready [(1, -1)]).cfg.idxPc + 24 ≤ 2147483647 ∧
    (9999999 : Word).toInt + 1 ≤ ((ready [(1, -1)]).cfg.memSize : Int) ∧
    (9999998 : Word).toInt + 2 ≤ ((ready [(1, -1)]).cfg.memSize : Int) := by decide

/-- A store into the next record, at its first byte and across its end, and the last byte and halfword of memory. -/
theorem test_witness_fetch_sees_the_stored_bytes :
    (ready [(1, 27)]).readable 1 = true ∧ 0 ≤ (36 : Word).toInt ∧ 0 ≤ (47 : Word).toInt ∧
    0 ≤ (ready [(1, 27)]).valueOf (ready [(1, 27)]).cfg.idxPc ∧
    (ready [(1, 27)]).valueOf (ready [(1, 27)]).cfg.idxPc + 24 ≤ ((ready [(1, 27)]).cfg.memSize : Int) ∧
    (ready [(1, 27)]).cfg.memSize ≤ 2147483647 ∧
    (9999999 : Word).toInt + 1 ≤ ((ready [(1, 27)]).cfg.memSize : Int) ∧
    (9999998 : Word).toInt + 2 ≤ ((ready [(1, 27)]).cfg.memSize : Int) := by decide

/-- The last target that overflows and the first that does not; under `wrap` every target passes. -/
theorem test_witness_jump :
    (ready []).transferFits (-2147483637) = false ∧ (ready []).transferFits (-2147483636) = true ∧
    (readyWrap []).transferFits (-2147483648) = true := by decide

theorem test_witness_jumpRelative :
    ((Instr.jumpRelative 13).regA = some 13 ∧ validRegWord 13 = false) ∧
    ((Instr.jumpRelative 2).wellFormed = true ∧ readWords (.jumpRelative 2) = [] ++ regWord 2 :: [] ∧
      (ready []).readable 2 = false) ∧
    ((ready [(2, -2147483643)]).readable 2 = true ∧
      (ready [(2, -2147483643)]).transferFits ((ready [(2, -2147483643)]).x.get 2) = false) ∧
    ((ready [(2, 120)]).readable 2 = true ∧
      (ready [(2, 120)]).transferFits ((ready [(2, 120)]).x.get 2) = true) := by decide

theorem test_witness_conditional_compareZeroJump :
    MeetsOperandClausesA (.compareZeroJump · 0) ∧
    ((ready [(1, 0)]).readable 1 = true ∧ ((ready [(1, 0)]).valueOf 1 = 0) ∧
      (ready [(1, 0)]).transferFits (-2147483637) = false ∧
      (ready [(1, 0)]).transferFits (-2147483636) = true) ∧
    ((ready [(1, 1)]).readable 1 = true ∧ ¬ ((ready [(1, 1)]).valueOf 1 = 0) ∧
      (ready [(1, 1)]).plainAdvanceFits = true) := by decide

theorem test_witness_conditional_nonZeroJump :
    MeetsOperandClausesA (.nonZeroJump · 0) ∧
    ((ready [(1, -1)]).readable 1 = true ∧ ((ready [(1, -1)]).valueOf 1 ≠ 0) ∧
      (ready [(1, -1)]).transferFits (-2147483637) = false ∧
      (ready [(1, -1)]).transferFits (-2147483636) = true) ∧
    ((ready [(1, 0)]).readable 1 = true ∧ ¬ ((ready [(1, 0)]).valueOf 1 ≠ 0) ∧
      (ready [(1, 0)]).plainAdvanceFits = true) := by decide

theorem test_witness_conditional_greaterThanZeroJump :
    MeetsOperandClausesA (.greaterThanZeroJump · 0) ∧
    ((ready [(1, 1)]).readable 1 = true ∧ (0 < (ready [(1, 1)]).valueOf 1) ∧
      (ready [(1, 1)]).transferFits (-2147483637) = false ∧
      (ready [(1, 1)]).transferFits (-2147483636) = true) ∧
    ((ready [(1, 0)]).readable 1 = true ∧ ¬ (0 < (ready [(1, 0)]).valueOf 1) ∧
      (ready [(1, 0)]).plainAdvanceFits = true) := by decide

theorem test_witness_conditional_lessThanZeroJump :
    MeetsOperandClausesA (.lessThanZeroJump · 0) ∧
    ((ready [(1, -1)]).readable 1 = true ∧ ((ready [(1, -1)]).valueOf 1 < 0) ∧
      (ready [(1, -1)]).transferFits (-2147483637) = false ∧
      (ready [(1, -1)]).transferFits (-2147483636) = true) ∧
    ((ready [(1, 0)]).readable 1 = true ∧ ¬ ((ready [(1, 0)]).valueOf 1 < 0) ∧
      (ready [(1, 0)]).plainAdvanceFits = true) := by decide

theorem test_witness_transfer_bias : (ready []).transferFits 48 = true := by decide

/-- An Add that is run to its end in a running core meets every hypothesis. -/
theorem test_witness_ordinary_advance :
    isTransfer (.add 1 2) = false ∧ writtenWord (.add 1 2) ≠ some (regWord (ready []).cfg.idxPc) ∧
    (pair 5 6).status = .running ∧ (pair 5 6).pending = none ∧
    (after (exec (.add 1 2) (pair 5 6))).map (fun t => (t.status, t.pending)) =
      some (.running, none) := by decide

/-- The largest value whose advance fits, and the next, written to `pc` by LoadAddress and Move. -/
theorem test_witness_writing_pc :
    12 = (ready []).cfg.idxPc ∧
    (ready []).fits ((2147483635 : Word).toInt + 12) = true ∧ (ready []).fits ((2147483636 : Word).toInt + 12) = false ∧
    ((ready [(1, 2147483635)]).readable 1 = true ∧
      (ready [(1, 2147483635)]).fits (((ready [(1, 2147483635)]).x.get 1).toInt + 12) = true) ∧
    ((ready [(1, 2147483636)]).readable 1 = true ∧
      (ready [(1, 2147483636)]).fits (((ready [(1, 2147483636)]).x.get 1).toInt + 12) = false) := by decide

/-- The same for a result `v` computed from `pc` = 24: it fits, and its advance fits or does not. -/
abbrev PcResult (s : State) (v : Int) (advances : Bool) : Prop :=
  s.readable s.cfg.idxPc = true ∧ s.readable 1 = true ∧ s.fits v = true ∧ s.fits ((wrap32 v).toInt + 12) = advances

theorem test_witness_writing_pc_sums :
    PcResult (ready [(1, 2147483611)]) (24 + (ready [(1, 2147483611)]).valueOf 1) true ∧
    PcResult (ready [(1, 2147483612)]) (24 + (ready [(1, 2147483612)]).valueOf 1) false ∧
    PcResult (ready [(1, -2147483611)]) (24 - (ready [(1, -2147483611)]).valueOf 1) true ∧
    PcResult (ready [(1, -2147483612)]) (24 - (ready [(1, -2147483612)]).valueOf 1) false ∧
    (ready []).valueOf (ready []).cfg.idxPc = 24 := by decide

/-- A quotient of `pc` overflows its advance only from a `pc` no fetch reaches. -/
theorem test_witness_writing_pc_products :
    PcResult (ready [(1, 89478484)]) (24 * (ready [(1, 89478484)]).valueOf 1) true ∧
    PcResult (ready [(1, 89478485)]) (24 * (ready [(1, 89478485)]).valueOf 1) false ∧
    PcResult (ready [(12, 2147483635), (1, 1)]) (Int.tdiv 2147483635 1) true ∧
    PcResult (ready [(12, 2147483636), (1, 1)]) (Int.tdiv 2147483636 1) false ∧
    (ready [(12, 2147483636), (1, 1)]).valueOf 1 ≠ 0 := by decide

/-- Compare, And and Or of `pc`, and loads into it of the last byte and the last halfword. -/
theorem test_witness_writing_pc_small_values :
    ((ready [(1, 0)]).readable 12 = true ∧ (ready [(1, 0)]).readable 1 = true ∧
      (ready [(1, 0)]).fits ((ready [(1, 0)]).valueOf 12 - (ready [(1, 0)]).valueOf 1) = true) ∧
    (0 ≤ (9999999 : Word).toInt ∧ (9999999 : Word).toInt + 1 ≤ ((ready []).cfg.memSize : Int)) ∧
    (0 ≤ (9999998 : Word).toInt ∧ (9999998 : Word).toInt + 2 ≤ ((ready []).cfg.memSize : Int)) := by decide

/-- The last value whose difference overflows and the first whose does not. -/
theorem test_witness_convertASCIIToInteger :
    (readWords .convertASCIIToInteger = [] ++ regWord 0 :: [] ∧ Instr.wellFormed .convertASCIIToInteger = true ∧
      (ready []).readable 0 = false) ∧
    ((ready [(0, -2147483601)]).readable Config.idxIo = true ∧
      (ready [(0, -2147483601)]).fits ((ready [(0, -2147483601)]).valueOf Config.idxIo - 48) = false) ∧
    ((ready [(0, -2147483600)]).fits ((ready [(0, -2147483600)]).valueOf Config.idxIo - 48) = true ∧
      (ready [(0, -2147483600)]).advanceFits Config.idxIo (-1) = true) := by decide

theorem test_witness_convertASCIIToInteger_digits :
    ((ready [(0, 48)]).readable Config.idxIo = true ∧ (ready [(0, 48)]).fits (48 - 48) = true ∧
      (ready [(0, 48)]).advanceFits Config.idxIo 0 = true) ∧
    ((ready [(0, 58)]).readable Config.idxIo = true ∧ (ready [(0, 58)]).fits (58 - 48) = true ∧
      (ready [(0, 58)]).advanceFits Config.idxIo (-1) = true) := by decide

theorem test_witness_convertIntegerToASCII :
    (readWords .convertIntegerToASCII = [] ++ regWord 0 :: [] ∧ Instr.wellFormed .convertIntegerToASCII = true ∧
      (ready []).readable 0 = false) ∧
    ((ready [(0, 2147483600)]).readable Config.idxIo = true ∧
      (ready [(0, 2147483600)]).fits ((ready [(0, 2147483600)]).valueOf Config.idxIo + 48) = false) ∧
    ((ready [(0, 2147483599)]).fits ((ready [(0, 2147483599)]).valueOf Config.idxIo + 48) = true ∧
      (ready [(0, 2147483599)]).advanceFits Config.idxIo 48 = true) := by decide

theorem test_witness_convertIntegerToASCII_digits :
    ((ready [(0, 9)]).readable Config.idxIo = true ∧ (ready [(0, 9)]).fits (9 + 48) = true ∧
      (ready [(0, 9)]).advanceFits Config.idxIo 57 = true) ∧
    ((ready [(0, 10)]).readable Config.idxIo = true ∧ (ready [(0, 10)]).fits (10 + 48) = true ∧
      (ready [(0, 10)]).advanceFits Config.idxIo 48 = true) := by decide

theorem test_witness_digit_characters :
    (ready [(0, 57)]).readable Config.idxIo = true ∧ (ready [(0, 57)]).cfg.idxPc ≠ Config.idxIo ∧
    48 ≤ (ready [(0, 57)]).valueOf Config.idxIo ∧ (ready [(0, 57)]).valueOf Config.idxIo ≤ 57 ∧
    (ready [(0, 57)]).valueOf (ready [(0, 57)]).cfg.idxPc + 24 ≤ 2147483647 := by decide

theorem test_witness_input_instructions :
    (ready []).status = .running ∧ (ready []).answers = [] ∧
    ({ ready [] with answers := [.ok 65] } : State).answers = .ok 65 :: [] ∧
      (ready []).advanceFits Config.idxIo 65 = true ∧
    ({ ready [] with answers := [.fail] } : State).answers = .fail :: [] ∧ (ready []).plainAdvanceFits = true := by decide

theorem test_witness_outputs :
    (readWords .outputASCII = [] ++ regWord 0 :: [] ∧ readWords .outputInteger = [] ++ regWord 0 :: [] ∧
      Instr.wellFormed .outputASCII = true ∧ Instr.wellFormed .outputInteger = true ∧ (ready []).readable 0 = false) ∧
    (ready [(0, 321)]).readable Config.idxIo = true ∧ (ready [(0, 321)]).plainAdvanceFits = true := by decide

/-- An Add in a running core, r3 not its destination; the frames of the registers, the memory and the control state. -/
theorem test_witness_frames :
    (after (exec (.add 1 2) (pair 5 6))).isSome = true ∧ (3 : RegIdx) ≠ (pair 5 6).cfg.idxPc ∧
    writtenWord (.add 1 2) ≠ some (regWord 3) ∧ storedRange (.add 1 2) = none := by decide

/-- A store to 2000 and 2001, for the bytes on both sides. -/
theorem test_witness_only_the_stored_bytes_change :
    (after (exec (.storeWord 1 2000) (ready [(1, 6)]))).isSome = true ∧ storedRange (.storeWord 1 2000) = some (2000, 2) ∧
    ¬ ((2000 : Word).toNat ≤ 1999 ∧ 1999 < (2000 : Word).toNat + 2) ∧
    ¬ ((2000 : Word).toNat ≤ 2002 ∧ 2002 < (2000 : Word).toNat + 2) := by decide

theorem test_witness_faults_are_precise :
    (ready []).status = .running ∧ (after (exec (.add 1 2) (ready []))).map (·.status) = some .faulted := by decide

/-- A fault under `REG_RESET = zero`, and an overflow under `OVERFLOW_POLICY = wrap`. -/
theorem test_witness_parameters_remove_their_causes :
    ({ ready [] with cfg := { Config.reference with regReset := .zero } } : State).status = .running ∧
    (after (exec (.loadByte 1 (-1)) { ready [] with cfg := { Config.reference with regReset := .zero } })).map
      (fun t => (t.status, t.cfg.regReset)) = some (.faulted, .zero) ∧
    (after (exec (.divide 1 2) (readyWrap [(1, -2147483648), (2, -1)]))).map
      (fun t => (t.status, t.fault.cause, t.cfg.overflow)) = some (.faulted, .arithmeticOverflow, .wrap) := by decide

/-- A core with a memory of 12 bytes: an image that just fits, and one a byte too long. -/
theorem test_witness_load :
    State.reset.status ≠ .running ∧
    (List.replicate 12 (0 : Byte)).length ≤ ({ Config.reference with memSize := 12 } : Config).memSize ∧
    ({ Config.reference with memSize := 12 } : Config).memSize < (List.replicate 13 (0 : Byte)).length ∧
    ({ State.reset with commands := [.load []] } : State).commands = .load [] :: [] := by decide

theorem test_witness_run :
    ({ State.reset with commands := [.run (-1)] } : State).status = .loaded ∧
    ({ State.reset with commands := [.run (-1)] } : State).commands = .run (-1) :: [] := by decide

theorem test_witness_refused_run :
    ({ State.reset with status := .empty, commands := [.run 0] } : State).status ≠ .loaded ∧
    ({ State.reset with status := .empty, commands := [.run 0] } : State).status ≠ .running ∧
    ({ State.reset with status := .empty, commands := [.run 0] } : State).commands = .run 0 :: [] := by decide

/-- R146: the host reads the fault record of a halted core (here all zero) and none of a running one. -/
theorem test_host_reads_the_fault_record_of_a_stopped_core :
    ({ ready [] with status := .halted } : State).inspect.faultRecord = some FaultRecord.zero ∧
    State.reset.inspect.faultRecord = some FaultRecord.zero ∧ (ready []).inspect.faultRecord = none := by decide

theorem test_witness_host_view :
    (ready []).status = .running ∧ ({ ready [] with status := .empty } : State).status = .empty ∧
    ({ ready [] with status := .halted } : State).status ≠ .running ∧
    ({ ready [] with status := .halted } : State).status ≠ .empty := by decide

/-- A step from a state that meets the invariant. -/
theorem test_witness_invariant :
    ({ State.reset with commands := [.run 0] } : State).Inv ∧
    (after (step { State.reset with commands := [.run 0] })).isSome = true := by decide

end Sys2Proof.Tests
end

section
/-! The operand faults of an instruction by the form of its record, what a register operation ends in, and the rules of Add,
AddImmediate, Multiply, And, Or, Move and LoadAddress (40_alu.md R79, R80, R82, R85 to R88). -/

namespace Sys2Proof.Machine

/-! ### The first register that cannot be read -/

/-- `r` is the first of the registers named by `ws` whose read faults (60_exceptions.md R125 (4)). -/
def FirstUnreadable (s : State) (ws : List Word) (r : RegIdx) : Prop :=
  ∃ before after, ws = before ++ regWord r :: after ∧ (∀ q, regWord q ∈ before → s.readable q = true) ∧
    s.readable r = false

@[simp] theorem firstUnreadable_nil (s : State) (r : RegIdx) : ¬ FirstUnreadable s [] r := by
  simp [FirstUnreadable]

/-- Either the first read faults, or it succeeds and the first faulting read is a later one. -/
@[simp] theorem firstUnreadable_cons (s : State) (q r : RegIdx) (ws : List Word) :
    FirstUnreadable s (regWord q :: ws) r ↔
      (q = r ∧ s.readable r = false) ∨ (s.readable q = true ∧ FirstUnreadable s ws r) := by
  constructor
  · rintro ⟨before, after, hws, hbefore, hr⟩
    cases before with
    | nil =>
      obtain ⟨hq, -⟩ := List.cons.inj hws
      exact .inl ⟨regWord_injective hq, hr⟩
    | cons w before =>
      obtain ⟨rfl, htail⟩ := List.cons.inj hws
      exact .inr ⟨hbefore q (by simp), before, after, htail, fun p hp => hbefore p (by simp [hp]), hr⟩
  · rintro (⟨rfl, hr⟩ | ⟨hq, before, after, rfl, hbefore, hr⟩)
    · exact ⟨[], ws, rfl, by simp, hr⟩
    · exact ⟨regWord q :: before, after, rfl, by simpa [hq] using hbefore, hr⟩

/-! ### Operand faults, by form (30_encoding.md R65; 60_exceptions.md R125 (3) and (4)) -/

section Forms

variable {i : Instr} {s : State} {ra rb : Word} {body : Except Raise Ending}

/-- A body that raises ends the instruction in the fault it raises. -/
theorem exec_of_body_error {r : Raise} (h : exec i s = finish i.mnemonic s body) (hbody : body = .error r) :
    exec i s = .next (s.faultedBy (s.cfg.opcodes.opcode i.mnemonic) r.cause r.detail) := by
  rw [h, hbody, finish_error, faultedBy_eq]

/-- The forms whose one register operand is `A` (RI, RM, RT and R). -/
theorem operandFaults_of_A (h : exec i s = finish i.mnemonic s body) (hA : i.regA = some ra) (hB : i.regB = none)
    (invalidA : validRegWord ra = false → body = .error (.invalidRegister ra))
    (unreadable : ∀ ia r, ra = regWord ia → FirstUnreadable s (readWords i) r →
      body = .error (.uninitialisedRegister r)) : OperandFaults i s := by
  refine ⟨fun w hw hv => ?_, fun w _ hw _ => ?_, fun before after r hwf hreads hbefore hr => ?_⟩
  · obtain rfl : ra = w := by simpa [hA] using hw
    exact exec_of_body_error h (invalidA hv)
  · simp [hB] at hw
  · obtain ⟨ia, hia⟩ := (validRegWord_iff ra).1 (by simpa [Instr.wellFormed, hA, hB] using hwf)
    exact exec_of_body_error h (unreadable ia r hia ⟨before, after, hreads, hbefore, hr⟩)

/-- The form RR, whose register operands are `A` and `B`. -/
theorem operandFaults_of_AB (h : exec i s = finish i.mnemonic s body) (hA : i.regA = some ra) (hB : i.regB = some rb)
    (invalidA : validRegWord ra = false → body = .error (.invalidRegister ra))
    (invalidB : ∀ ia, ra = regWord ia → validRegWord rb = false → body = .error (.invalidRegister rb))
    (unreadable : ∀ ia ib r, ra = regWord ia → rb = regWord ib → FirstUnreadable s (readWords i) r →
      body = .error (.uninitialisedRegister r)) : OperandFaults i s := by
  refine ⟨fun w hw hv => ?_, fun w hvA hw hv => ?_, fun before after r hwf hreads hbefore hr => ?_⟩
  · obtain rfl : ra = w := by simpa [hA] using hw
    exact exec_of_body_error h (invalidA hv)
  · obtain rfl : rb = w := by simpa [hB] using hw
    obtain ⟨ia, hia⟩ := (validRegWord_iff ra).1 (by simpa [hA] using hvA)
    exact exec_of_body_error h (invalidB ia hia hv)
  · obtain ⟨hvA, hvB⟩ : validRegWord ra = true ∧ validRegWord rb = true := by simpa [Instr.wellFormed, hA, hB] using hwf
    obtain ⟨ia, hia⟩ := (validRegWord_iff ra).1 hvA
    obtain ⟨ib, hib⟩ := (validRegWord_iff rb).1 hvB
    exact exec_of_body_error h (unreadable ia ib r hia hib ⟨before, after, hreads, hbefore, hr⟩)

/-! ### Binary operations: every instruction whose meaning is `binary` -/

variable {f : RegIdx → Word → Word → Except Raise Word} {ia ib : RegIdx}

theorem operandFaults_of_binary (h : exec i s = finish i.mnemonic s (binary s ra rb f)) (hA : i.regA = some ra)
    (hB : i.regB = some rb) (hreads : readWords i = [ra, rb]) : OperandFaults i s := by
  refine operandFaults_of_AB h hA hB (fun hv => ?_) (fun ia hia hv => ?_) (fun ia ib r hia hib hr => ?_)
  · simp only [binary, reg_invalid hv, error_bind]
  · simp only [binary, hia, reg_regWord, reg_invalid hv, ok_bind, error_bind]
  · rw [hreads, hia, hib] at hr
    simp only [firstUnreadable_cons, firstUnreadable_nil, and_false, or_false] at hr
    rcases hr with ⟨rfl, hr⟩ | ⟨ha, rfl, hr⟩
    · simp only [binary, hia, hib, reg_regWord, readReg_error hr, ok_bind, error_bind]
    · simp only [binary, hia, hib, reg_regWord, readReg_ok ha, readReg_error hr, ok_bind, error_bind]

/-- Both registers readable, a result that is a fault: the instruction takes it. -/
theorem exec_of_binary_error {r : Raise} (h : exec i s = finish i.mnemonic s (binary s (regWord ia) (regWord ib) f))
    (ha : s.readable ia = true) (hb : s.readable ib = true) (hf : f ib (s.x.get ia) (s.x.get ib) = .error r) :
    exec i s = .next (s.faultedBy (s.cfg.opcodes.opcode i.mnemonic) r.cause r.detail) :=
  exec_of_body_error h (by rw [binary_ok ha hb, hf]; rfl)

/-- Both registers readable, a result that is a word: the instruction writes it to its first register. -/
theorem exec_of_binary_ok {v : Word} (h : exec i s = finish i.mnemonic s (binary s (regWord ia) (regWord ib) f))
    (ha : s.readable ia = true) (hb : s.readable ib = true) (hf : f ib (s.x.get ia) (s.x.get ib) = .ok v)
    (hadv : s.advanceFits ia v = true) : exec i s = .next (s.afterWrite ia v) := by
  rw [h, binary_ok ha hb, hf]
  exact finish_write hadv

/-- A result that goes through `ovf` and does not fit (40_alu.md R76). -/
theorem exec_of_binary_ovf_error {v : Int}
    (h : exec i s = finish i.mnemonic s (binary s (regWord ia) (regWord ib) f)) (ha : s.readable ia = true)
    (hb : s.readable ib = true) (hf : f ib (s.x.get ia) (s.x.get ib) = s.ovf v) (hfit : s.fits v = false) :
    exec i s = .next (s.faultedBy (s.cfg.opcodes.opcode i.mnemonic) .arithmeticOverflow 0) :=
  exec_of_binary_error h ha hb (hf.trans (ovf_error hfit))

/-- A result that goes through `ovf` and fits. -/
theorem exec_of_binary_ovf_ok {v : Int}
    (h : exec i s = finish i.mnemonic s (binary s (regWord ia) (regWord ib) f)) (ha : s.readable ia = true)
    (hb : s.readable ib = true) (hf : f ib (s.x.get ia) (s.x.get ib) = s.ovf v) (hfit : s.fits v = true)
    (hadv : s.advanceFits ia (wrap32 v) = true) : exec i s = .next (s.afterWrite ia (wrap32 v)) :=
  exec_of_binary_ok h ha hb (hf.trans (ovf_ok hfit)) hadv

end Forms

/-! ### The other three meanings: AddImmediate, Move and LoadAddress -/

theorem operandFaults_addImmediate (ra imm : Word) (s : State) : OperandFaults (.addImmediate ra imm) s := by
  refine operandFaults_of_A rfl rfl rfl (fun hv => ?_) (fun ia r hia hr => ?_)
  · rw [reg_invalid hv, error_bind]
  · subst hia
    obtain ⟨rfl, hr⟩ : ia = r ∧ s.readable r = false := by simpa [readWords] using hr
    rw [reg_regWord, ok_bind, readReg_error hr, error_bind]

theorem exec_addImmediate_of_readable {s : State} {ia : RegIdx} (imm : Word) (ha : s.readable ia = true) :
    exec (.addImmediate (regWord ia) imm) s =
      finish .addImmediate s
        ((s.ovf (s.valueOf ia + imm.toInt)).map fun v => Ending.continues (s.writeReg ia v)) := by
  show finish .addImmediate s _ = _
  rw [reg_regWord, ok_bind, readReg_ok ha, ok_bind, State.valueOf]
  cases s.ovf ((s.x.get ia).toInt + imm.toInt) <;> rfl

theorem operandFaults_move (ra rb : Word) (s : State) : OperandFaults (.move ra rb) s := by
  refine operandFaults_of_AB rfl rfl rfl (fun hv => ?_) (fun ia hia hv => ?_) (fun ia ib r hia hib hr => ?_)
  · rw [reg_invalid hv, error_bind]
  · rw [hia, reg_regWord, ok_bind, reg_invalid hv, error_bind]
  · subst hia hib
    obtain ⟨rfl, hr⟩ : ib = r ∧ s.readable r = false := by simpa [readWords] using hr
    rw [reg_regWord, ok_bind, reg_regWord, ok_bind, readReg_error hr, error_bind]

theorem exec_move_of_readable {s : State} {ib : RegIdx} (ia : RegIdx) (hb : s.readable ib = true) :
    exec (.move (regWord ia) (regWord ib)) s = finish .move s (.ok (.continues (s.writeReg ia (s.x.get ib)))) := by
  show finish .move s _ = _
  rw [reg_regWord, ok_bind, reg_regWord, ok_bind, readReg_ok hb, ok_bind]

theorem operandFaults_loadAddress (ra imm : Word) (s : State) : OperandFaults (.loadAddress ra imm) s := by
  refine operandFaults_of_A rfl rfl rfl (fun hv => ?_) (fun ia r _ hr => ?_)
  · rw [reg_invalid hv, error_bind]
  · exact absurd hr (firstUnreadable_nil s r)

theorem exec_loadAddress_regWord (ia : RegIdx) (imm : Word) (s : State) :
    exec (.loadAddress (regWord ia) imm) s = finish .loadAddress s (.ok (.continues (s.writeReg ia imm))) := by
  show finish .loadAddress s _ = _
  rw [reg_regWord, ok_bind]

/-! ### Truth values -/

theorem ofTruth_decide (p : Prop) [Decidable p] : ofTruth (decide p) = if p then 1 else 0 := by
  by_cases h : p <;> simp [ofTruth, h]

/-- A register's word is zero exactly when its signed value is. -/
theorem valueOf_eq_zero_iff (s : State) (r : RegIdx) : s.valueOf r = 0 ↔ s.x.get r = 0 := by
  simp [State.valueOf, ← BitVec.toInt_inj]

theorem ofTruth_and_eq (s : State) (ia ib : RegIdx) :
    ofTruth (decide (s.x.get ia ≠ 0) && decide (s.x.get ib ≠ 0)) =
      if s.valueOf ia ≠ 0 ∧ s.valueOf ib ≠ 0 then 1 else 0 := by
  simp only [← ofTruth_decide, Bool.decide_and, ne_eq, valueOf_eq_zero_iff]

theorem ofTruth_or_eq (s : State) (ia ib : RegIdx) :
    ofTruth (decide (s.x.get ia ≠ 0) || decide (s.x.get ib ≠ 0)) =
      if s.valueOf ia ≠ 0 ∨ s.valueOf ib ≠ 0 then 1 else 0 := by
  simp only [← ofTruth_decide, Bool.decide_or, ne_eq, valueOf_eq_zero_iff]

/-! ### The rules -/

/-- Settles O12: an operand fault, the fault of `ovf`, or the sum written. -/
theorem addFollowsItsRule : Obligations.AddFollowsItsRule := by
  refine ⟨by decide, fun s => ⟨fun ra rb => ?operands, fun ia ib ha hb hfit => ?overflow,
    fun ia ib ha hb hfit hadv => ?result⟩⟩
  case operands => exact operandFaults_of_binary rfl rfl rfl rfl
  case overflow => exact exec_of_binary_ovf_error rfl ha hb rfl hfit
  case result => exact exec_of_binary_ovf_ok rfl ha hb rfl hfit hadv

/-- Settles O13: an operand fault, the fault of `ovf`, or the sum with the immediate written. -/
theorem addImmediateFollowsItsRule : Obligations.AddImmediateFollowsItsRule := by
  refine ⟨by decide, fun s => ⟨fun ra imm => operandFaults_addImmediate ra imm s, fun ia imm ha hfit => ?overflow,
    fun ia imm ha hfit hadv => ?result⟩⟩
  case overflow =>
    exact exec_of_body_error (exec_addImmediate_of_readable imm ha) (by rw [ovf_error hfit]; rfl)
  case result =>
    rw [exec_addImmediate_of_readable imm ha, ovf_ok hfit]
    exact finish_write hadv

/-- Settles O15: an operand fault, the fault of `ovf`, or the product written. -/
theorem multiplyFollowsItsRule : Obligations.MultiplyFollowsItsRule := by
  refine ⟨by decide, fun s => ⟨fun ra rb => ?operands, fun ia ib ha hb hfit => ?overflow,
    fun ia ib ha hb hfit hadv => ?result⟩⟩
  case operands => exact operandFaults_of_binary rfl rfl rfl rfl
  case overflow => exact exec_of_binary_ovf_error rfl ha hb rfl hfit
  case result => exact exec_of_binary_ovf_ok rfl ha hb rfl hfit hadv

/-- Settles O21: the truth value written is that of the signed values. -/
theorem andFollowsItsRule : Obligations.AndFollowsItsRule := by
  refine ⟨by decide, fun s => ⟨fun ra rb => ?operands, fun ia ib ha hb hadv => ?result⟩⟩
  case operands => exact operandFaults_of_binary rfl rfl rfl rfl
  case result => exact exec_of_binary_ok rfl ha hb (congrArg Except.ok (ofTruth_and_eq s ia ib)) hadv

/-- Settles O22: the truth value written is that of the signed values. -/
theorem orFollowsItsRule : Obligations.OrFollowsItsRule := by
  refine ⟨by decide, fun s => ⟨fun ra rb => ?operands, fun ia ib ha hb hadv => ?result⟩⟩
  case operands => exact operandFaults_of_binary rfl rfl rfl rfl
  case result => exact exec_of_binary_ok rfl ha hb (congrArg Except.ok (ofTruth_or_eq s ia ib)) hadv

/-- Settles O23: the source alone is read. -/
theorem moveFollowsItsRule : Obligations.MoveFollowsItsRule := by
  refine ⟨by decide, fun s => ⟨fun ra rb => operandFaults_move ra rb s, fun ia ib hb hadv => ?_⟩⟩
  rw [exec_move_of_readable ia hb]
  exact finish_write hadv

/-- Settles O24: no register is read. -/
theorem loadAddressFollowsItsRule : Obligations.LoadAddressFollowsItsRule := by
  refine ⟨by decide, fun s => ⟨fun ra imm => operandFaults_loadAddress ra imm s, fun ia imm hadv => ?_⟩⟩
  rw [exec_loadAddress_regWord]
  exact finish_write hadv

end Sys2Proof.Machine
end

section
/-! Loads and stores: the bounds of a data access, the bytes it reads or writes, what every instruction of the two shapes
ends in, and the rules of LoadByte, LoadWord, StoreByte and StoreWord (41_memory_access.md R90 to R95). -/

namespace Sys2Proof.Machine

/-! ### The bounds (20_memory.md R50) -/

theorem inBounds_eq_false_iff (s : State) (addr : Word) (n : Nat) :
    s.inBounds addr n = false ↔ addr.toInt < 0 ∨ (s.cfg.memSize : Int) < addr.toInt + n := by
  rw [← Bool.not_eq_true, inBounds_iff]
  omega

/-! ### The bytes of a data access (20_memory.md R48) -/

theorem leValue_readBytes_one (m : Memory) (a : Nat) : leValue (Memory.readBytes m a 1) = (Memory.read m a).toNat := by
  simp [Memory.readBytes, leValue]

theorem leValue_readBytes_two (m : Memory) (a : Nat) :
    leValue (Memory.readBytes m a 2) = (Memory.read m a).toNat + 256 * (Memory.read m (a + 1)).toNat := by
  simp [Memory.readBytes, leValue]

theorem leBytes_one (v : Word) : leBytes 1 v.toNat = [v.setWidth 8] := by
  simp [leBytes]

theorem leBytes_two (v : Word) : leBytes 2 v.toNat = [v.extractLsb' 0 8, v.extractLsb' 8 8] := by
  simp [leBytes, BitVec.extractLsb', Nat.shiftRight_eq_div_pow]

theorem read_writeBytes_one (m : Memory) (a a' : Nat) (b : Byte) :
    Memory.read (Memory.writeBytes m a [b]) a' = if a' = a then b else Memory.read m a' :=
  read_write m a a' b

theorem read_writeBytes_two (m : Memory) (a a' : Nat) (b c : Byte) :
    Memory.read (Memory.writeBytes m a [b, c]) a' =
      if a' = a then b else if a' = a + 1 then c else Memory.read m a' := by
  rw [Memory.writeBytes, read_writeBytes_one, read_write]
  by_cases h : a' = a
  · simp [h]
  · simp [h]

theorem read_writeBytes_outside {m : Memory} {a a' : Nat} {bs : List Byte} (h : a' < a ∨ a + bs.length ≤ a') :
    Memory.read (Memory.writeBytes m a bs) a' = Memory.read m a' := by
  rw [read_writeBytes, if_neg (by omega)]

/-! ### What the end states leave unchanged -/

theorem afterWrite_frame {s : State} {d r : RegIdx} (v : Word) (hd : r ≠ d) (hpc : r ≠ s.cfg.idxPc) :
    (s.afterWrite d v).x.get r = s.x.get r ∧ (s.afterWrite d v).written.get r = s.written.get r := by
  simp [State.afterWrite, hd, hpc]

theorem afterNone_frame {s : State} {r : RegIdx} (hpc : r ≠ s.cfg.idxPc) :
    s.afterNone.x.get r = s.x.get r ∧ s.afterNone.written.get r = s.written.get r := by
  simp [State.afterNone, State.goTo, hpc]

/-! ### Every instruction whose meaning is `loadInto` -/

section Loads

variable {i : Instr} {s t : State} {n : Nat} {ra addr : Word} {ia : RegIdx}

/-- A load reads no register, so its only operand fault is an invalid `A`. -/
theorem operandFaults_of_load (h : exec i s = finish i.mnemonic s (loadInto s n ra addr)) (hA : i.regA = some ra)
    (hB : i.regB = none) (hreads : readWords i = []) : OperandFaults i s := by
  refine operandFaults_of_A h hA hB (fun hv => ?_) (fun _ r _ hr => ?_)
  · simp only [loadInto, reg_invalid hv, error_bind]
  · rw [hreads] at hr
    exact absurd hr (firstUnreadable_nil s r)

theorem exec_of_load_outOfBounds (h : exec i s = finish i.mnemonic s (loadInto s n (regWord ia) addr))
    (hb : addr.toInt < 0 ∨ (s.cfg.memSize : Int) < addr.toInt + n) :
    exec i s = .next (s.faultedBy (s.cfg.opcodes.opcode i.mnemonic) .dataOutOfBounds addr) := by
  have hb := (inBounds_eq_false_iff s addr n).2 hb
  exact exec_of_body_error h (r := .dataOutOfBounds addr) (by simp [loadInto, State.loadData, hb])

theorem exec_of_load_inBounds {v : Word} (h : exec i s = finish i.mnemonic s (loadInto s n (regWord ia) addr))
    (hlow : 0 ≤ addr.toInt) (hhigh : addr.toInt + n ≤ s.cfg.memSize)
    (hv : v = BitVec.ofNat 32 (leValue (Memory.readBytes s.mem addr.toNat n))) (hadv : s.advanceFits ia v = true) :
    exec i s = .next (s.afterWrite ia v) := by
  have hb := (inBounds_iff s addr n).2 ⟨hlow, hhigh⟩
  have hbody : loadInto s n (regWord ia) addr = .ok (.continues (s.writeReg ia v)) := by
    simp [loadInto, State.loadData, hb, hv]
  rw [h, hbody, finish_write hadv]

/-- A load takes a fault or writes the register that its `A` word names. -/
theorem exec_of_load_cases (h : exec i s = finish i.mnemonic s (loadInto s n ra addr)) :
    (∃ op r, exec i s = .next (s.takeFault op r)) ∨ ∃ d v, ra = regWord d ∧ exec i s = .next (s.afterWrite d v) := by
  rcases loadInto_cases s n ra addr with ⟨_, hbody⟩ | ⟨_, _, _, hbody⟩ | ⟨d, hd, _, hbody⟩
  · exact .inl ⟨_, _, by rw [h, hbody, finish_error]⟩
  · exact .inl ⟨_, _, by rw [h, hbody, finish_error]⟩
  · cases hadv : s.advanceFits d (BitVec.ofNat 32 (leValue (Memory.readBytes s.mem addr.toNat n)))
    · exact .inl ⟨_, _, by rw [h, hbody, finish_write_error hadv]⟩
    · exact .inr ⟨d, _, hd, by rw [h, hbody, finish_write hadv]⟩

theorem load_frame (h : exec i s = finish i.mnemonic s (loadInto s n ra addr)) (ht : exec i s = .next t) :
    ((∃ op cause detail, t = s.faultedBy op cause detail) ∨ t = { s with x := t.x, written := t.written }) ∧
      ∀ r, regWord r ≠ ra → r ≠ s.cfg.idxPc → t.x.get r = s.x.get r ∧ t.written.get r = s.written.get r := by
  rcases exec_of_load_cases h with ⟨op, raised, hfault⟩ | ⟨d, v, rfl, hwrite⟩
  · obtain rfl : s.takeFault op raised = t := Host.Outcome.next.inj (hfault.symm.trans ht)
    exact ⟨.inl ⟨_, _, _, faultedBy_eq s op raised⟩, fun _ _ _ => ⟨rfl, rfl⟩⟩
  · obtain rfl : s.afterWrite d v = t := Host.Outcome.next.inj (hwrite.symm.trans ht)
    exact ⟨.inr rfl, fun r hr hpc => afterWrite_frame v (fun hd => hr (congrArg regWord hd)) hpc⟩

end Loads

/-! ### Every instruction whose meaning is `storeFrom` -/

section Stores

variable {i : Instr} {s t : State} {n : Nat} {ra addr : Word} {ia : RegIdx}

theorem operandFaults_of_store (h : exec i s = finish i.mnemonic s (storeFrom s n ra addr)) (hA : i.regA = some ra)
    (hB : i.regB = none) (hreads : readWords i = [ra]) : OperandFaults i s := by
  refine operandFaults_of_A h hA hB (fun hv => ?_) (fun ia r hia hr => ?_)
  · simp only [storeFrom, reg_invalid hv, error_bind]
  · subst hia
    obtain ⟨rfl, hr⟩ : ia = r ∧ s.readable r = false := by simpa [hreads] using hr
    simp only [storeFrom, reg_regWord, readReg_error hr, ok_bind, error_bind]

theorem exec_of_store_outOfBounds (h : exec i s = finish i.mnemonic s (storeFrom s n (regWord ia) addr))
    (ha : s.readable ia = true) (hb : addr.toInt < 0 ∨ (s.cfg.memSize : Int) < addr.toInt + n) :
    exec i s = .next (s.faultedBy (s.cfg.opcodes.opcode i.mnemonic) .dataOutOfBounds addr) := by
  have hb := (inBounds_eq_false_iff s addr n).2 hb
  exact exec_of_body_error h (r := .dataOutOfBounds addr) (by simp [storeFrom, readReg_ok ha, State.storeData, hb])

theorem exec_of_store_inBounds (h : exec i s = finish i.mnemonic s (storeFrom s n (regWord ia) addr))
    (ha : s.readable ia = true) (hlow : 0 ≤ addr.toInt) (hhigh : addr.toInt + n ≤ s.cfg.memSize)
    (hadv : s.plainAdvanceFits = true) :
    exec i s = .next
      { s.afterNone with mem := Memory.writeBytes s.mem addr.toNat (leBytes n (s.x.get ia).toNat) } := by
  have hb := (inBounds_iff s addr n).2 ⟨hlow, hhigh⟩
  have hbody : storeFrom s n (regWord ia) addr =
      .ok (.continues { s with mem := Memory.writeBytes s.mem addr.toNat (leBytes n (s.x.get ia).toNat) }) := by
    simp [storeFrom, readReg_ok ha, State.storeData, hb]
  rw [h, hbody, finish_store _ hadv]

/-- A store takes a fault or writes its bytes and advances. -/
theorem exec_of_store_cases (h : exec i s = finish i.mnemonic s (storeFrom s n ra addr)) :
    (∃ op r, exec i s = .next (s.takeFault op r)) ∨
    ∃ v : Word, exec i s = .next { s.afterNone with mem := Memory.writeBytes s.mem addr.toNat (leBytes n v.toNat) } := by
  rcases storeFrom_cases s n ra addr with ⟨_, hbody⟩ | ⟨_, _, _, hbody⟩ | ⟨_, _, _, _, hbody⟩ |
    ⟨ia, _, _, _, hbody⟩
  · exact .inl ⟨_, _, by rw [h, hbody, finish_error]⟩
  · exact .inl ⟨_, _, by rw [h, hbody, finish_error]⟩
  · exact .inl ⟨_, _, by rw [h, hbody, finish_error]⟩
  · cases hadv : s.plainAdvanceFits
    · exact .inl ⟨_, _, by rw [h, hbody]; exact ExecEnds.of_plain_overflow rfl rfl hadv⟩
    · exact .inr ⟨s.x.get ia, by rw [h, hbody, finish_store _ hadv]⟩

theorem store_frame (h : exec i s = finish i.mnemonic s (storeFrom s n ra addr)) (ht : exec i s = .next t) :
    ((∃ op cause detail, t = s.faultedBy op cause detail) ∨
      t = { s with x := t.x, written := t.written, mem := t.mem }) ∧
      ∀ r, r ≠ s.cfg.idxPc → t.x.get r = s.x.get r ∧ t.written.get r = s.written.get r := by
  rcases exec_of_store_cases h with ⟨op, raised, hfault⟩ | ⟨v, hstore⟩
  · obtain rfl : s.takeFault op raised = t := Host.Outcome.next.inj (hfault.symm.trans ht)
    exact ⟨.inl ⟨_, _, _, faultedBy_eq s op raised⟩, fun _ _ => ⟨rfl, rfl⟩⟩
  · obtain rfl := Host.Outcome.next.inj (hstore.symm.trans ht)
    exact ⟨.inr rfl, fun _ hpc => afterNone_frame hpc⟩

theorem store_read_outside (h : exec i s = finish i.mnemonic s (storeFrom s n ra addr)) (ht : exec i s = .next t)
    {a : Nat} (ha : a < addr.toNat ∨ addr.toNat + n ≤ a) : Memory.read t.mem a = Memory.read s.mem a := by
  rcases exec_of_store_cases h with ⟨op, raised, hfault⟩ | ⟨v, hstore⟩
  · obtain rfl : s.takeFault op raised = t := Host.Outcome.next.inj (hfault.symm.trans ht)
    rw [takeFault_mem]
  · obtain rfl := Host.Outcome.next.inj (hstore.symm.trans ht)
    exact read_writeBytes_outside (by rwa [leBytes_length])

end Stores

/-! ### The rules -/

/-- Settles O25: an invalid `A`, an address out of bounds, or the byte written. -/
theorem loadByteFollowsItsRule : Obligations.LoadByteFollowsItsRule := by
  refine ⟨by decide, fun s => ⟨fun ra addr => ?operands, fun ia addr hb => ?outOfBounds,
    fun ia addr hlow hhigh hadv => ?result⟩⟩
  case operands => exact operandFaults_of_load rfl rfl rfl rfl
  case outOfBounds => exact exec_of_load_outOfBounds rfl hb
  case result =>
    exact exec_of_load_inBounds rfl hlow hhigh (by rw [leValue_readBytes_one, BitVec.ofNat_toNat]) hadv

/-- Settles O26: an invalid `A`, an address out of bounds, or the halfword written. -/
theorem loadWordFollowsItsRule : Obligations.LoadWordFollowsItsRule := by
  refine ⟨by decide, fun s => ⟨fun ra addr => ?operands, fun ia addr hb => ?outOfBounds,
    fun ia addr v hlow hhigh hv hadv => ?result⟩⟩
  case operands => exact operandFaults_of_load rfl rfl rfl rfl
  case outOfBounds => exact exec_of_load_outOfBounds rfl hb
  case result => exact exec_of_load_inBounds rfl hlow hhigh (by rw [hv, leValue_readBytes_two]) hadv

/-- Settles O27: an operand fault, an address out of bounds, or the low byte stored. -/
theorem storeByteFollowsItsRule : Obligations.StoreByteFollowsItsRule := by
  refine ⟨by decide, fun s => ⟨fun ra addr => ?operands, fun ia addr ha hb => ?outOfBounds,
    fun ia addr ha hlow hhigh hadv => ?result⟩⟩
  case operands => exact operandFaults_of_store rfl rfl rfl rfl
  case outOfBounds => exact exec_of_store_outOfBounds rfl ha hb
  case result =>
    refine ⟨_, exec_of_store_inBounds rfl ha hlow hhigh hadv, rfl, fun a => ?_⟩
    rw [leBytes_one, read_writeBytes_one]

/-- Settles O28: an operand fault, an address out of bounds, or the two low bytes stored. -/
theorem storeWordFollowsItsRule : Obligations.StoreWordFollowsItsRule := by
  refine ⟨by decide, fun s => ⟨fun ra addr => ?operands, fun ia addr ha hb => ?outOfBounds,
    fun ia addr ha hlow hhigh hadv => ?result⟩⟩
  case operands => exact operandFaults_of_store rfl rfl rfl rfl
  case outOfBounds => exact exec_of_store_outOfBounds rfl ha hb
  case result =>
    refine ⟨_, exec_of_store_inBounds rfl ha hlow hhigh hadv, rfl, fun a => ?_⟩
    rw [leBytes_two, read_writeBytes_two]

/-- Settles O29: the frames of the two forms, at one byte and at two. -/
theorem loadsAndStoresHaveNoOtherEffect : Obligations.LoadsAndStoresHaveNoOtherEffect := by
  refine fun s t ra addr => ⟨fun ht => ?load, fun ht => ?store, fun ht a ha => ?byteRange, fun ht a ha hb => ?wordRange⟩
  case load =>
    rcases ht with ht | ht
    · exact load_frame (n := 1) rfl ht
    · exact load_frame (n := 2) rfl ht
  case store =>
    rcases ht with ht | ht
    · exact store_frame (n := 1) rfl ht
    · exact store_frame (n := 2) rfl ht
  case byteRange => exact store_read_outside (n := 1) rfl ht (by omega)
  case wordRange => exact store_read_outside (n := 2) rfl ht (by omega)

end Sys2Proof.Machine
end

section
/-! Control transfer: what an instruction whose meaning is `transferIf` ends in, and the rules of the four conditional jumps
and of End (42_control_transfer.md R101 to R105). -/

namespace Sys2Proof.Machine

/-! ### Every instruction whose meaning is `transferIf` -/

section Conditional

variable {s : State} {ia : RegIdx} {test : Int → Bool}

/-- A test that passes leaves the rest to the transfer, whose bias may still overflow. -/
theorem transferIf_taken (target : Word) (ha : s.readable ia = true) (ht : test (s.valueOf ia) = true) :
    transferIf s (regWord ia) target test = transferTo s target := by
  rw [State.valueOf] at ht
  simp only [transferIf, reg_regWord, readReg_ok ha, ok_bind, ht, if_true]

/-- A test that fails never looks at the target, so the bias cannot overflow. -/
theorem transferIf_not_taken (target : Word) (ha : s.readable ia = true) (ht : test (s.valueOf ia) = false) :
    transferIf s (regWord ia) target test = .ok (.continues s) := by
  rw [State.valueOf] at ht
  simp only [transferIf, reg_regWord, readReg_ok ha, ok_bind, ht, Bool.false_eq_true, if_false]

theorem operandFaults_of_conditional {i : Instr} {ra target : Word}
    (h : exec i s = finish i.mnemonic s (transferIf s ra target test)) (hA : i.regA = some ra) (hB : i.regB = none)
    (hreads : readWords i = [ra]) : OperandFaults i s := by
  refine operandFaults_of_A h hA hB (fun hv => ?_) (fun ia r hia hr => ?_)
  · simp only [transferIf, reg_invalid hv, error_bind]
  · subst hia
    obtain ⟨rfl, hr⟩ : ia = r ∧ s.readable r = false := by simpa [hreads] using hr
    simp only [transferIf, reg_regWord, readReg_error hr, ok_bind, error_bind]

end Conditional

/-- The four jumps differ in their test alone: each reads its `A` word, and its rule follows from what `transferIf` does when
the test passes and when it fails. -/
theorem conditionalJumpRule_of_transferIf {jump : Word → Word → Instr} {taken : Int → Prop} [DecidablePred taken]
    (h : ∀ ra target s, exec (jump ra target) s =
      finish (jump ra target).mnemonic s (transferIf s ra target fun v => decide (taken v)))
    (hA : ∀ ra target, (jump ra target).regA = some ra := by intros; rfl)
    (hB : ∀ ra target, (jump ra target).regB = none := by intros; rfl)
    (hreads : ∀ ra target, readWords (jump ra target) = [ra] := by intros; rfl) : ConditionalJumpRule jump taken := by
  refine fun s => ⟨fun ra target => ?operands, fun ia target ha ht hfit => ?overflow, fun ia target ha ht hfit => ?transfer,
    fun ia target ha ht hadv => ?advance⟩
  case operands =>
    exact operandFaults_of_conditional (h ra target s) (hA ra target) (hB ra target) (hreads ra target)
  case overflow =>
    rw [h, transferIf_taken target ha (decide_eq_true ht), finish_transfer_error hfit, faultedBy_eq]
    rfl
  case transfer => rw [h, transferIf_taken target ha (decide_eq_true ht), finish_transfer hfit]
  case advance =>
    rw [h, transferIf_not_taken target ha (decide_eq_false ht), finish_plain rfl rfl hadv, State.afterNone]

/-! ### The rules -/

/-- Settles O34: the four opcodes, and one rule at four tests of the register's signed value. -/
theorem conditionalJumpsFollowTheirRules : Obligations.ConditionalJumpsFollowTheirRules := by
  refine ⟨by decide, by decide, by decide, by decide, ?zero, ?nonZero, ?greater, ?less⟩
  case zero => exact conditionalJumpRule_of_transferIf fun _ _ _ => rfl
  case nonZero => exact conditionalJumpRule_of_transferIf fun _ _ _ => rfl
  case greater => exact conditionalJumpRule_of_transferIf fun _ _ _ => rfl
  case less => exact conditionalJumpRule_of_transferIf fun _ _ _ => rfl

/-- Settles O36: End's meaning is to halt in the state it began in. -/
theorem endHaltsAndChangesNothingElse : Obligations.EndHaltsAndChangesNothingElse :=
  ⟨by decide, fun s => finish_halts .endRun s s⟩

end Sys2Proof.Machine
end

section
/-! Console output: the operand fault of an instruction whose one operand is the implicit `io`, what an instruction whose
meaning is `outputIo` ends in, and the rule of OutputASCII (43_io.md R114). -/

namespace Sys2Proof.Machine

section ImplicitIo

variable {i : Instr} {s : State}

/-- The instructions of form N that read `io`: no operand word can be invalid, so an unreadable `io` is their one operand
fault. -/
theorem operandFaults_of_io {body : Except Raise Ending} (h : exec i s = finish i.mnemonic s body)
    (hA : i.regA = none) (hB : i.regB = none) (hreads : readWords i = [regWord Config.idxIo])
    (unreadable : s.readable Config.idxIo = false → body = .error (.uninitialisedRegister Config.idxIo)) :
    OperandFaults i s := by
  refine ⟨fun w hw _ => ?invalidA, fun w _ hw _ => ?invalidB, fun before after r _ hr hbefore hunread => ?unreadable⟩
  case invalidA => simp [hA] at hw
  case invalidB => simp [hB] at hw
  case unreadable =>
    have hfirst : FirstUnreadable s [regWord Config.idxIo] r := ⟨before, after, hreads ▸ hr, hbefore, hunread⟩
    obtain ⟨rfl, hio⟩ : Config.idxIo = r ∧ s.readable r = false := by simpa using hfirst
    exact exec_of_body_error h (unreadable hio)

variable {event : Word → Event}

theorem outputIo_unreadable (hio : s.readable Config.idxIo = false) :
    outputIo s event = .error (.uninitialisedRegister Config.idxIo) := by
  rcases outputIo_cases s event with ⟨-, hout⟩ | ⟨hread, -⟩
  · exact hout
  · simp [hio] at hread

theorem outputIo_readable (hio : s.readable Config.idxIo = true) :
    outputIo s event = .ok (.continues (s.emit (event (s.x.get Config.idxIo)))) := by
  rcases outputIo_cases s event with ⟨hunread, -⟩ | ⟨-, hout⟩
  · simp [hio] at hunread
  · exact hout

theorem operandFaults_of_output (h : exec i s = finish i.mnemonic s (outputIo s event)) (hA : i.regA = none)
    (hB : i.regB = none) (hreads : readWords i = [regWord Config.idxIo]) : OperandFaults i s :=
  operandFaults_of_io h hA hB hreads outputIo_unreadable

/-- The advance starts from the state with the event, whose registers are those of the state before. -/
theorem exec_of_output_readable (h : exec i s = finish i.mnemonic s (outputIo s event))
    (hio : s.readable Config.idxIo = true) (hadv : s.plainAdvanceFits = true) :
    exec i s = .next { s.afterNone with out := s.out ++ [event (s.x.get Config.idxIo)] } := by
  rw [h, outputIo_readable hio, finish_plain (emit_x s _) (emit_cfg s _) hadv]
  rfl

end ImplicitIo

/-! ### The rule -/

/-- OutputASCII's meaning, with bits 7:0 of `io` as the truncation of the word to a byte. -/
theorem exec_outputASCII_eq (s : State) :
    exec .outputASCII s =
      finish (Instr.mnemonic .outputASCII) s (outputIo s fun v => .byte (v.setWidth 8)) := by
  simp only [BitVec.setWidth_eq_extractLsb' (show 8 ≤ 32 by decide)]
  rfl

/-- Settles O43: an unreadable `io` is the operand fault; the low byte of a readable one is emitted, and the advance leaves
the event in place. -/
theorem outputASCIIFollowsItsRule : Obligations.OutputASCIIFollowsItsRule := by
  refine ⟨by decide, fun s => ⟨?operands, fun hio hadv => ?event⟩⟩
  case operands => exact operandFaults_of_output (exec_outputASCII_eq s) rfl rfl rfl
  case event => exact exec_of_output_readable (exec_outputASCII_eq s) hio hadv

end Sys2Proof.Machine
end

section
/-! Encoding: what `decode` answers by the record's opcode, which operand words an instruction is built from, and the claims
about the decoder and the encoder (30_encoding.md R63 to R71). -/

namespace Sys2Proof.Machine

/-! ### The decoder, by the opcode lookup -/

theorem decodeRecord_of_mnemonicOf {map : OpcodeMap} {r : Record} {m : Mnemonic} (h : map.mnemonicOf r.op = some m) :
    decodeRecord map r = some (instrOf m r.a r.b) := by
  rw [decodeRecord, h, Option.map_some]

theorem decodeRecord_eq_none_iff {map : OpcodeMap} {r : Record} :
    decodeRecord map r = none ↔ ∀ m, map.opcode m ≠ r.op := by
  rw [decodeRecord, Option.map_eq_none_iff, mnemonicOf_eq_none]

theorem decode_of_decodeRecord_some {map : OpcodeMap} {bytes : List Byte} {i : Instr} (hlen : bytes.length = 12)
    (h : decodeRecord map (Record.ofBytes bytes) = some i) : decode map bytes = .ok i := by
  rw [decode_of_length hlen, h]

theorem decode_of_decodeRecord_none {map : OpcodeMap} {bytes : List Byte} (hlen : bytes.length = 12)
    (h : decodeRecord map (Record.ofBytes bytes) = none) :
    decode map bytes = .error (.unknownOpcode (Record.ofBytes bytes).op) := by
  rw [decode_of_length hlen, h]

theorem decode_eq_ok_iff {map : OpcodeMap} {bytes : List Byte} {i : Instr} (hlen : bytes.length = 12) :
    decode map bytes = .ok i ↔ decodeRecord map (Record.ofBytes bytes) = some i := by
  refine ⟨fun h => ?_, decode_of_decodeRecord_some hlen⟩
  cases hrec : decodeRecord map (Record.ofBytes bytes) with
  | none =>
    rw [decode_of_decodeRecord_none hlen hrec] at h
    cases h
  | some j =>
    rw [decode_of_decodeRecord_some hlen hrec] at h
    cases h
    rfl

/-! ### The operand words an instruction is built from -/

/-- `FieldsRoundTrip.Statement` of every instruction: its constructors' lemmas in Laws/PerInstr, as one. -/
theorem instrOf_fields (i : Instr) : instrOf i.mnemonic i.wordA i.wordB = i := by
  cases i <;> rfl

/-- The forms that use no operand word: N (R65). -/
theorem instrOf_of_not_usesA {m : Mnemonic} (h : Mnemonic.usesA m = false) (a a' b b' : Word) :
    instrOf m a' b' = instrOf m a b := by
  have hN := not_not.1 (of_decide_eq_false h)
  simp only [List.mem_cons, List.not_mem_nil, or_false] at hN
  rcases hN with rfl | rfl | rfl | rfl | rfl | rfl | rfl <;> rfl

/-- The forms that use no `B` word: N, T and R (R65). -/
theorem instrOf_of_not_usesB {m : Mnemonic} (h : Mnemonic.usesB m = false) (a b b' : Word) :
    instrOf m a b' = instrOf m a b := by
  cases hA : Mnemonic.usesA m with
  | false => exact instrOf_of_not_usesA hA a a b b'
  | true =>
    rw [Mnemonic.usesB, hA, Bool.true_and] at h
    have hTR := not_not.1 (of_decide_eq_false h)
    simp only [List.mem_cons, List.not_mem_nil, or_false] at hTR
    rcases hTR with rfl | rfl <;> rfl

/-- A mnemonic builds its instruction from the words its form uses and from no other (R65, R66). -/
theorem instrOf_congr {m : Mnemonic} {a a' b b' : Word} (ha : Mnemonic.usesA m = true → a' = a)
    (hb : Mnemonic.usesB m = true → b' = b) : instrOf m a' b' = instrOf m a b := by
  cases hA : Mnemonic.usesA m with
  | false => exact instrOf_of_not_usesA hA a a' b b'
  | true =>
    rw [ha hA]
    cases hB : Mnemonic.usesB m with
    | false => exact instrOf_of_not_usesB hB a b b'
    | true => rw [hb hB]

/-! ### The claims -/

/-- Settles O1: the bytes give back the record, the record's opcode its mnemonic, and the mnemonic and the words the
instruction. -/
theorem decodingAnEncodedInstructionGivesItBack : Obligations.DecodingAnEncodedInstructionGivesItBack := by
  intro map i hinj
  have hrec : Record.ofBytes (encode map i) = encodeRecord map i := ofBytes_toBytes _
  have hop : map.mnemonicOf (encodeRecord map i).op = some i.mnemonic := mnemonicOf_opcode hinj i.mnemonic
  apply decode_of_decodeRecord_some (record_toBytes_length _)
  calc decodeRecord map (Record.ofBytes (encode map i))
      = decodeRecord map (encodeRecord map i) := by rw [hrec]
    _ = some (instrOf i.mnemonic i.wordA i.wordB) := decodeRecord_of_mnemonicOf hop
    _ = some i := by rw [instrOf_fields]

/-- Settles O2: each record is decoded by evaluation. -/
theorem sampleRecordsDecode : Obligations.SampleRecordsDecode := by
  refine ⟨?_, ?_, ?_, ?_, ?_, ?_⟩ <;> decide

/-- Settles O3: 12 bytes fail to decode only where the opcode lookup finds nothing. -/
theorem onlyUnknownOpcodesAreIllegal : Obligations.OnlyUnknownOpcodesAreIllegal := by
  intro map bytes e hlen
  rw [← decodeRecord_eq_none_iff]
  cases hrec : decodeRecord map (Record.ofBytes bytes) with
  | none => simp [decode_of_decodeRecord_none hlen hrec, eq_comm]
  | some i => simp [decode_of_decodeRecord_some hlen hrec]

/-- Settles O4: the lookup reads the opcode alone, and the instruction is built from the words of its form. -/
theorem unusedOperandWordsDoNotMatter : Obligations.UnusedOperandWordsDoNotMatter := by
  intro map r r' hop ha hb
  cases hm : map.mnemonicOf r.op with
  | none => rw [decodeRecord_eq_none_iff.2 (mnemonicOf_eq_none.1 hm),
      decodeRecord_eq_none_iff.2 (mnemonicOf_eq_none.1 (hop ▸ hm))]
  | some m =>
    have hr := opcode_of_mnemonicOf hm
    rw [decodeRecord_of_mnemonicOf hm, decodeRecord_of_mnemonicOf (hop.symm ▸ hm), instrOf_congr (ha m hr) (hb m hr)]

end Sys2Proof.Machine
end

section
/-! The end states of an instruction, field by field, and what follows of every instruction from `exec_ends`: it answers a
next state, what it leaves unchanged, and which faults it takes (10_state.md R28, R36; 60_exceptions.md R121 to R124). -/

namespace Sys2Proof.Machine

/-! ### goTo, afterNone and afterWrite, field by field -/

section EndStates

variable (s : State) (d r : RegIdx) (v target : Word)

@[simp] theorem goTo_get : (s.goTo target).x.get r = if r = s.cfg.idxPc then target else s.x.get r := by
  simp [State.goTo]
@[simp] theorem goTo_written : (s.goTo target).written.get r = (decide (r = s.cfg.idxPc) || s.written.get r) := by
  simp [State.goTo]
@[simp] theorem goTo_mem : (s.goTo target).mem = s.mem := by simp only [State.goTo]
@[simp] theorem goTo_status : (s.goTo target).status = s.status := by simp only [State.goTo]
@[simp] theorem goTo_pending : (s.goTo target).pending = s.pending := by simp only [State.goTo]
@[simp] theorem goTo_fault : (s.goTo target).fault = s.fault := by simp only [State.goTo]
@[simp] theorem goTo_out : (s.goTo target).out = s.out := by simp only [State.goTo]
@[simp] theorem goTo_cfg : (s.goTo target).cfg = s.cfg := by simp only [State.goTo]
@[simp] theorem goTo_commands : (s.goTo target).commands = s.commands := by simp only [State.goTo]
@[simp] theorem goTo_answers : (s.goTo target).answers = s.answers := by simp only [State.goTo]
@[simp] theorem goTo_freeDraws : (s.goTo target).freeDraws = s.freeDraws := by simp only [State.goTo]
@[simp] theorem goTo_pc : (s.goTo target).pc = target := by simp [State.pc]

@[simp] theorem afterNone_get :
    s.afterNone.x.get r = if r = s.cfg.idxPc then wrap32 (s.pc.toInt + 12) else s.x.get r := goTo_get s r _
@[simp] theorem afterNone_written : s.afterNone.written.get r = (decide (r = s.cfg.idxPc) || s.written.get r) :=
  goTo_written s r _
@[simp] theorem afterNone_mem : s.afterNone.mem = s.mem := goTo_mem s _
@[simp] theorem afterNone_status : s.afterNone.status = s.status := goTo_status s _
@[simp] theorem afterNone_pending : s.afterNone.pending = s.pending := goTo_pending s _
@[simp] theorem afterNone_fault : s.afterNone.fault = s.fault := goTo_fault s _
@[simp] theorem afterNone_out : s.afterNone.out = s.out := goTo_out s _
@[simp] theorem afterNone_cfg : s.afterNone.cfg = s.cfg := goTo_cfg s _
@[simp] theorem afterNone_commands : s.afterNone.commands = s.commands := goTo_commands s _
@[simp] theorem afterNone_answers : s.afterNone.answers = s.answers := goTo_answers s _
@[simp] theorem afterNone_freeDraws : s.afterNone.freeDraws = s.freeDraws := goTo_freeDraws s _
@[simp] theorem afterNone_pc : s.afterNone.pc = wrap32 (s.pc.toInt + 12) := goTo_pc s _

@[simp] theorem afterWrite_get : (s.afterWrite d v).x.get r =
    if r = s.cfg.idxPc then wrap32 ((s.pcBeforeAdvance d v).toInt + 12) else if r = d then v else s.x.get r := by
  simp [State.afterWrite]
@[simp] theorem afterWrite_written :
    (s.afterWrite d v).written.get r = (decide (r = s.cfg.idxPc) || decide (r = d) || s.written.get r) := by
  simp [State.afterWrite]
@[simp] theorem afterWrite_mem : (s.afterWrite d v).mem = s.mem := by simp only [State.afterWrite]
@[simp] theorem afterWrite_status : (s.afterWrite d v).status = s.status := by simp only [State.afterWrite]
@[simp] theorem afterWrite_pending : (s.afterWrite d v).pending = s.pending := by simp only [State.afterWrite]
@[simp] theorem afterWrite_fault : (s.afterWrite d v).fault = s.fault := by simp only [State.afterWrite]
@[simp] theorem afterWrite_out : (s.afterWrite d v).out = s.out := by simp only [State.afterWrite]
@[simp] theorem afterWrite_cfg : (s.afterWrite d v).cfg = s.cfg := by simp only [State.afterWrite]
@[simp] theorem afterWrite_commands : (s.afterWrite d v).commands = s.commands := by simp only [State.afterWrite]
@[simp] theorem afterWrite_answers : (s.afterWrite d v).answers = s.answers := by simp only [State.afterWrite]
@[simp] theorem afterWrite_freeDraws : (s.afterWrite d v).freeDraws = s.freeDraws := by simp only [State.afterWrite]

theorem afterWrite_pc_word : (s.afterWrite d v).pc = wrap32 ((s.pcBeforeAdvance d v).toInt + 12) := by
  simp [State.pc]

end EndStates

/-! ### A write to a register other than `pc` -/

section OtherRegister

variable {s : State} {d : RegIdx} (hd : d ≠ s.cfg.idxPc) (v : Word)
include hd

theorem pcBeforeAdvance_of_ne : s.pcBeforeAdvance d v = s.pc := if_neg hd

/-- Where `pc` is not written, the advance is that of an instruction that writes nothing. -/
theorem advanceFits_of_ne : s.advanceFits d v = s.plainAdvanceFits := by
  rw [State.advanceFits, pcBeforeAdvance_of_ne hd]
  rfl

theorem afterWrite_pc_of_ne : (s.afterWrite d v).pc = wrap32 (s.pc.toInt + 12) := by
  rw [afterWrite_pc_word, pcBeforeAdvance_of_ne hd]

theorem valueOf_afterWrite_of_ne : (s.afterWrite d v).valueOf d = v.toInt := by
  simp [State.valueOf, hd]

end OtherRegister

/-! ### Every instruction -/

theorem eq_instrOf_of_mnemonic {i : Instr} {m : Mnemonic} (h : i.mnemonic = m) : i = instrOf m i.wordA i.wordB := by
  rw [← h, instrOf_fields]

theorem next_inj {s t : State} {i : Instr} {u : State} (hu : exec i s = .next u) (ht : exec i s = .next t) : u = t :=
  Host.Outcome.next.inj (hu.symm.trans ht)

/-- No instruction changes the parameters. -/
theorem exec_cfg {i : Instr} {s t : State} (ht : exec i s = .next t) : t.cfg = s.cfg := by
  cases exec_ends i s with
  | fault r _ eq => rw [← next_inj eq ht, takeFault_cfg]
  | write d v _ _ _ eq => rw [← next_inj eq ht, afterWrite_cfg]
  | transfer target _ eq => rw [← next_inj eq ht, goTo_cfg]
  | store n addr v _ _ _ eq => rw [← next_inj eq ht, afterNone_cfg]
  | output e _ _ eq => rw [← next_inj eq ht, emit_cfg, afterNone_cfg]
  | hold k _ eq => rw [← next_inj eq ht]
  | halt _ eq => rw [← next_inj eq ht]

/-- An instruction of a running core that leaves it FAULTED took a fault that it may raise, and did nothing else. -/
theorem exec_faulted {i : Instr} {s t : State} (hs : s.status = .running) (ht : exec i s = .next t)
    (hf : t.status = .faulted) :
    ∃ r, MayRaise i s r ∧ t = s.takeFault (s.cfg.opcodes.opcode i.mnemonic) r := by
  cases exec_ends i s with
  | fault r may eq => exact ⟨r, may, (next_inj eq ht).symm⟩
  | write d v _ _ _ eq => simp [← next_inj eq ht, hs] at hf
  | transfer target _ eq => simp [← next_inj eq ht, hs] at hf
  | store n addr v _ _ _ eq => simp [← next_inj eq ht, hs] at hf
  | output e _ _ eq => simp [← next_inj eq ht, hs] at hf
  | hold k _ eq => simp [← next_inj eq ht, hs] at hf
  | halt _ eq => simp [← next_inj eq ht] at hf

/-- Only the overflow is recorded as ArithmeticOverflow, and with detail 0 (R121). -/
theorem detail_of_arithmeticOverflow {r : Raise} (h : r.cause = .arithmeticOverflow) : r.detail = 0 := by
  cases r with
  | arithmeticOverflow => rfl
  | _ => cases h

/-! ### The claims -/

/-- Settles O11: each of the ways an instruction can end is a next state. -/
theorem everyInstructionAnswersANextState : Obligations.EveryInstructionAnswersANextState := by
  intro i s
  cases exec_ends i s with
  | fault _ _ eq => exact ⟨_, eq⟩
  | write _ _ _ _ _ eq => exact ⟨_, eq⟩
  | transfer _ _ eq => exact ⟨_, eq⟩
  | store _ _ _ _ _ _ eq => exact ⟨_, eq⟩
  | output _ _ _ eq => exact ⟨_, eq⟩
  | hold _ _ eq => exact ⟨_, eq⟩
  | halt _ eq => exact ⟨_, eq⟩

/-- Settles O45: the one register that an end state writes beside `pc` is the destination of `writtenWord`. -/
theorem onlyTheNamedRegisterIsWritten : Obligations.OnlyTheNamedRegisterIsWritten := by
  intro i s t r ht hpc hdest
  cases exec_ends i s with
  | fault _ _ eq => simp [← next_inj eq ht]
  | write d v dest _ _ eq =>
    have hd : r ≠ d := fun h => hdest (h ▸ dest)
    simp [← next_inj eq ht, hpc, hd]
  | transfer _ _ eq => simp [← next_inj eq ht, hpc]
  | store _ _ _ _ _ _ eq => simp [← next_inj eq ht, hpc]
  | output _ _ _ eq => simp [← next_inj eq ht, hpc]
  | hold _ _ eq => simp [← next_inj eq ht]
  | halt _ eq => simp [← next_inj eq ht]

/-- Settles O46: only a store writes memory, and only the bytes of its range. -/
theorem onlyTheStoredBytesChange : Obligations.OnlyTheStoredBytesChange := by
  intro i s t a ht hout
  cases exec_ends i s with
  | fault _ _ eq => rw [← next_inj eq ht, takeFault_mem]
  | write _ _ _ _ _ eq => rw [← next_inj eq ht, afterWrite_mem]
  | transfer _ _ eq => rw [← next_inj eq ht, goTo_mem]
  | store n addr v range _ _ eq =>
    rw [← next_inj eq ht]
    have hrange := hout addr n range
    exact read_writeBytes_outside (by rw [leBytes_length]; omega)
  | output _ _ _ eq => rw [← next_inj eq ht, emit_mem, afterNone_mem]
  | hold _ _ eq => rw [← next_inj eq ht]
  | halt _ eq => rw [← next_inj eq ht]

/-- Settles O47: each end state changes at most one part of the control state, and its kind of instruction is the one
named. -/
theorem controlStateFrame : Obligations.ControlStateFrame := by
  intro i s t ht
  cases exec_ends i s with
  | fault _ _ eq => simp [← next_inj eq ht]
  | write _ _ _ _ _ eq => simp [← next_inj eq ht]
  | transfer _ _ eq => simp [← next_inj eq ht]
  | store _ _ _ _ _ _ eq => simp [← next_inj eq ht]
  | output _ which _ eq => rcases which with rfl | rfl <;> simp [← next_inj eq ht]
  | hold k which eq =>
    cases k with
    | char =>
      have hi : i = .inputASCII := eq_instrOf_of_mnemonic which
      simp [← next_inj eq ht, hi]
    | int =>
      have hi : i = .inputInteger := eq_instrOf_of_mnemonic which
      simp [← next_inj eq ht, hi]
  | halt which eq => simp [← next_inj eq ht, which]

/-- Settles O48: the fault taken is one that the instruction's row allows. -/
theorem faultsArePreciseAndOfTheNamedCauses : Obligations.FaultsArePreciseAndOfTheNamedCauses := by
  intro i s t hs ht hf
  obtain ⟨r, ⟨hcause, -, -⟩, rfl⟩ := exec_faulted hs ht hf
  exact ⟨r.cause, r.detail, hcause, detail_of_arithmeticOverflow, faultedBy_eq s _ r⟩

/-- Settles O49: the fault taken is one that the parameters allow. -/
theorem parametersRemoveTheirCauses : Obligations.ParametersRemoveTheirCauses := by
  intro i s t hs ht hf
  obtain ⟨r, ⟨-, hunread, hovf⟩, rfl⟩ := exec_faulted hs ht hf
  refine ⟨fun hzero hcause => ?zero, fun hwrap hcause => ?wrap⟩
  case zero => exact absurd ((hunread hcause).symm.trans hzero) (by decide)
  case wrap => exact (hovf hcause).resolve_left fun hfault => absurd (hfault.symm.trans hwrap) (by decide)

end Sys2Proof.Machine
end

section
/-! One step: which of its transitions the status enables, the three ends of an instruction step, the host's commands, and what
the host can read (42_control_transfer.md R97, R106; 43_io.md R113; 70_reset_and_hazards.md R141 to R146). -/

namespace Sys2Proof.Machine

/-! ### The transition that the status enables -/

section Enabled

variable {s : State}

theorem step_of_running (hs : s.status = .running) (hp : s.pending = none) : step s = instructionStep s := by
  rcases step_cases s with ⟨-, -, h⟩ | ⟨k, -, hk, -⟩ | ⟨k, a, rest, -, hk, -⟩ | ⟨hn, -⟩ | ⟨c, rest, hn, -⟩
  · exact h
  · simp [hp] at hk
  · simp [hp] at hk
  · exact absurd hs hn
  · exact absurd hs hn

theorem step_of_unanswered {k : InputKind} (hs : s.status = .running) (hp : s.pending = some k) (ha : s.answers = []) :
    step s = .fault (.inputUnanswered k) := by
  rcases step_cases s with ⟨-, hk, -⟩ | ⟨k', -, hk, -, h⟩ | ⟨_, a, rest, -, -, hc, -⟩ | ⟨hn, -⟩ |
    ⟨c, rest, hn, -⟩
  · simp [hp] at hk
  · obtain rfl := Option.some.inj (hp.symm.trans hk)
    exact h
  · simp [ha] at hc
  · exact absurd hs hn
  · exact absurd hs hn

theorem step_of_answered {k : InputKind} {a : Answer} {rest : List Answer} (hs : s.status = .running)
    (hp : s.pending = some k) (ha : s.answers = a :: rest) : step s = .next (s.completeInput k a rest) := by
  rcases step_cases s with ⟨-, hk, -⟩ | ⟨_, -, -, hc, -⟩ | ⟨k', a', rest', -, hk, hc, h⟩ | ⟨hn, -⟩ |
    ⟨c, rest', hn, -⟩
  · simp [hp] at hk
  · simp [ha] at hc
  · obtain rfl := Option.some.inj (hp.symm.trans hk)
    obtain ⟨rfl, rfl⟩ := List.cons.inj (ha.symm.trans hc)
    exact h
  · exact absurd hs hn
  · exact absurd hs hn

theorem step_of_no_command (hs : s.status ≠ .running) (hc : s.commands = []) :
    step s = .fault (.noStepEnabled s.status) := by
  rcases step_cases s with ⟨hr, -⟩ | ⟨_, hr, -⟩ | ⟨_, _, _, hr, -⟩ | ⟨-, -, h⟩ | ⟨c, rest, -, hc', -⟩
  · exact absurd hr hs
  · exact absurd hr hs
  · exact absurd hr hs
  · exact h
  · simp [hc] at hc'

theorem step_of_command {c : Command} {rest : List Command} (hs : s.status ≠ .running) (hc : s.commands = c :: rest) :
    step s = .next ({ s with commands := rest }.perform c) := by
  rcases step_cases s with ⟨hr, -⟩ | ⟨_, hr, -⟩ | ⟨_, _, _, hr, -⟩ | ⟨-, hc', -⟩ | ⟨c', rest', -, hc', h⟩
  · exact absurd hr hs
  · exact absurd hr hs
  · exact absurd hr hs
  · simp [hc] at hc'
  · obtain ⟨rfl, rfl⟩ := List.cons.inj (hc.symm.trans hc')
    exact h

end Enabled

/-! ### The instruction step -/

section InstructionStep

variable {s : State}

theorem instructionStep_of_outOfBounds (hb : s.inBounds s.pc Config.recordBytes = false) :
    instructionStep s = .next (s.takeFault 0 (.fetchOutOfBounds s.pc)) := by
  rcases instructionStep_cases s with ⟨-, h⟩ | ⟨r, -, hin, -⟩ | ⟨r, i, -, hin, -⟩
  · exact h
  · simp [hb] at hin
  · simp [hb] at hin

theorem instructionStep_of_unknown (hb : s.inBounds s.pc Config.recordBytes = true) {r : Record}
    (hr : r = Record.ofBytes (Memory.readBytes s.mem s.pc.toNat Config.recordBytes))
    (hd : decodeRecord s.cfg.opcodes r = none) :
    instructionStep s = .next (s.takeFault r.op (.unknownOpcode r.op)) := by
  rcases instructionStep_cases s with ⟨hout, -⟩ | ⟨r', hr', -, -, h⟩ | ⟨r', i, hr', -, hi, -⟩
  · simp [hb] at hout
  · obtain rfl : r = r' := hr.trans hr'.symm
    exact h
  · obtain rfl : r = r' := hr.trans hr'.symm
    simp [hd] at hi

theorem instructionStep_of_decoded (hb : s.inBounds s.pc Config.recordBytes = true) {i : Instr}
    (hd : decodeRecord s.cfg.opcodes (Record.ofBytes (Memory.readBytes s.mem s.pc.toNat Config.recordBytes)) = some i) :
    instructionStep s = exec i s := by
  rcases instructionStep_cases s with ⟨hout, -⟩ | ⟨r, rfl, -, hnone, -⟩ | ⟨r, j, rfl, -, hj, h⟩
  · simp [hb] at hout
  · simp [hd] at hnone
  · obtain rfl := Option.some.inj (hd.symm.trans hj)
    exact h

end InstructionStep

/-! ### The host's commands -/

section Commands

variable {s : State}

theorem perform_load_of_fits {image : List Byte} (h : image.length ≤ s.cfg.memSize) :
    s.perform (.load image) = s.loadImage image := if_pos h

theorem perform_load_of_oversize {image : List Byte} (h : s.cfg.memSize < image.length) :
    s.perform (.load image) = s.rejectImage image := if_neg (not_le.2 h)

theorem perform_run_of_loaded (start : Word) (h : s.status = .loaded) :
    s.perform (.run start) = { s.goTo start with pending := none, status := .running } := by
  rw [← writeReg_pc_eq_goTo]
  exact if_pos h

theorem perform_run_of_not_loaded (start : Word) (h : s.status ≠ .loaded) : s.perform (.run start) = s := if_neg h

theorem perform_cfg (c : Command) : (s.perform c).cfg = s.cfg := by
  rcases perform_cases s c with ⟨image, -, -, h⟩ | ⟨image, -, -, h⟩ | ⟨start, -, -, h⟩ | ⟨start, -, -, h⟩
  · rw [h, loadImage_cfg]
  · rw [h, rejectImage_cfg]
  · rw [h, writeReg_cfg]
  · rw [h]

/-- The bits that `LOAD` leaves are those of `REG_RESET` (10_state.md R30, R41). -/
@[simp] theorem writtenAfterLoad_get (p : RegReset) (r : RegIdx) :
    (writtenAfterLoad p).get r = decide (p = .zero) := by
  cases p <;> exact vector_get_replicate _ r

@[simp] theorem registersAfterLoad_get (r : RegIdx) : registersAfterLoad.get r = 0 := vector_get_replicate _ r

end Commands

/-! ### The completion of an input hold -/

@[simp] theorem receive_cfg (s : State) (k : InputKind) (a : Answer) : (s.receive k a).cfg = s.cfg := by
  cases a <;> rfl

theorem completeInput_cfg (s : State) (k : InputKind) (a : Answer) (rest : List Answer) :
    (s.completeInput k a rest).cfg = s.cfg := by
  rcases completeInput_cases s k a rest with ⟨-, h⟩ | ⟨-, h⟩
  · rw [h, writeReg_cfg, receive_cfg]
  · rw [h, takeFault_cfg]

theorem instructionStep_cfg {s t : State} (ht : instructionStep s = .next t) : t.cfg = s.cfg := by
  rcases instructionStep_cases s with ⟨-, h⟩ | ⟨r, -, -, -, h⟩ | ⟨r, i, -, -, -, h⟩
  · rw [← Host.Outcome.next.inj (h.symm.trans ht), takeFault_cfg]
  · rw [← Host.Outcome.next.inj (h.symm.trans ht), takeFault_cfg]
  · exact exec_cfg (h.symm.trans ht)

/-! ### The claims about a running core -/

/-- Settles O5: the record is in bounds and decodes, so the instruction step runs it. -/
theorem stepRunsTheDecodedInstruction : Obligations.StepRunsTheDecodedInstruction := by
  intro s i hs hp hlow hhigh hdec
  rw [step_of_running hs hp]
  exact instructionStep_of_decoded ((inBounds_iff s _ _).2 ⟨hlow, hhigh⟩)
    ((decode_eq_ok_iff (readBytes_length _ _ _)).1 hdec)

/-- Settles O6: the fetch is the first thing a running core does. -/
theorem fetchOutOfBoundsFaults : Obligations.FetchOutOfBoundsFaults := by
  intro s hs hp hout
  rw [step_of_running hs hp, instructionStep_of_outOfBounds ((inBounds_eq_false_iff s _ _).2 hout), faultedBy_eq]
  rfl

/-- Settles O7: no mnemonic has the opcode, so the record does not decode. -/
theorem unknownOpcodeFaults : Obligations.UnknownOpcodeFaults := by
  rintro s op hs hp hlow hhigh rfl hunknown
  rw [step_of_running hs hp, instructionStep_of_unknown ((inBounds_iff s _ _).2 ⟨hlow, hhigh⟩) rfl
    (decodeRecord_eq_none_iff.2 hunknown), faultedBy_eq]
  rfl

/-- Settles O8: without a command a stopped core has no transition. -/
theorem stoppedCoreEnablesNoStep : Obligations.StoppedCoreEnablesNoStep :=
  fun _ hs hc => step_of_no_command hs hc

/-- Settles O9: a terminal status performs a command, and of the commands only `LOAD` is not refused there. -/
theorem onlyLoadLeavesATerminalStatus : Obligations.OnlyLoadLeavesATerminalStatus := by
  intro s t hterm ht
  have hrun : s.status ≠ .running := by rintro h; simp [h] at hterm
  have hload : s.status ≠ .loaded := by rintro h; simp [h] at hterm
  cases hc : s.commands with
  | nil =>
    rw [step_of_no_command hrun hc] at ht
    cases ht
  | cons c rest =>
    rw [step_of_command hrun hc] at ht
    cases c with
    | load image => exact .inl ⟨image, rest, rfl⟩
    | run start =>
      have hrefused := perform_run_of_not_loaded (s := { s with commands := rest }) start hload
      exact .inr ⟨start, rest, rfl, (Host.Outcome.next.inj ht).symm.trans hrefused⟩

/-- Settles O10: each transition that a step can be keeps the parameters. -/
theorem parametersNeverChange : Obligations.ParametersNeverChange := by
  intro s t ht
  rcases step_cases s with ⟨-, -, h⟩ | ⟨k, -, -, -, h⟩ | ⟨k, a, rest, -, -, -, h⟩ | ⟨-, -, h⟩ |
    ⟨c, rest, -, -, h⟩
  · exact instructionStep_cfg (h.symm.trans ht)
  · cases h.symm.trans ht
  · rw [← Host.Outcome.next.inj (h.symm.trans ht), completeInput_cfg]
  · cases h.symm.trans ht
  · rw [← Host.Outcome.next.inj (h.symm.trans ht), perform_cfg]

/-! ### The claims about reset, load, run and the host's view -/

/-- Settles O50: the fields of the reset state, each of them again after the load of no bytes. -/
theorem resetIsTheLoadedEmptyImage : Obligations.ResetIsTheLoadedEmptyImage := by
  refine ⟨rfl, rfl, rfl, rfl, rfl, fun r => writtenAfterLoad_get _ r, fun _ => rfl, fun x => ?_⟩
  have hload : State.reset.load [] = State.reset.loadImage [] := if_pos (Nat.zero_le _)
  rw [hload]
  rfl

/-- Settles O51: the step loads the image, whose memory `read_ofImage` reads. -/
theorem loadBuildsMemoryFromTheImage : Obligations.LoadBuildsMemoryFromTheImage := by
  intro s image rest hs hc hfit
  refine ⟨_, (step_of_command hs hc).trans (congrArg _ (perform_load_of_fits hfit)), rfl, rfl, rfl, rfl, rfl, rfl,
    fun a => read_ofImage image a, fun r => writtenAfterLoad_get _ r, fun _ r => registersAfterLoad_get r⟩

/-- Settles O52: the step refuses the image and records its length. -/
theorem oversizeImageIsALoadError : Obligations.OversizeImageIsALoadError := by
  intro s image rest hs hc hsize
  exact ⟨_, (step_of_command hs hc).trans (congrArg _ (perform_load_of_oversize hsize)), rfl, rfl, rfl, rfl⟩

/-- Settles O53: the write of `pc` is `goTo`. -/
theorem runStartsALoadedCore : Obligations.RunStartsALoadedCore := by
  intro s start rest hs hc
  exact (step_of_command (by simp [hs]) hc).trans (congrArg _ (perform_run_of_loaded start hs))

/-- Settles O54: the refused command is the only thing used up. -/
theorem runIsRefusedUnlessLoaded : Obligations.RunIsRefusedUnlessLoaded := by
  intro s start rest hload hrun hc
  exact (step_of_command hrun hc).trans (congrArg _ (perform_run_of_not_loaded start hload))

/-- Settles O55: the tests of `inspect` on the status, decided. -/
theorem hostReadsNoRegisterOfARunningCore : Obligations.HostReadsNoRegisterOfARunningCore := by
  refine fun s => ⟨rfl, fun hhidden => ?hidden, fun hrun hempty => ?shown, fun hrun => if_pos hrun, fun hrun => if_neg hrun⟩
  case hidden => exact ⟨if_pos hhidden, if_pos hhidden, if_pos hhidden⟩
  case shown =>
    have hshown : ¬ (s.status = .running ∨ s.status = .empty) := not_or.2 ⟨hrun, hempty⟩
    exact ⟨if_neg hshown, if_neg hshown, if_neg hshown⟩

end Sys2Proof.Machine
end

section
/-! The invariant of the core: each transition that a step can be keeps `State.Inv` (10_state.md R30, R34, R35, R41, R45;
43_io.md R111; 60_exceptions.md R121 to R126). -/

namespace Sys2Proof.Machine

/-! ### The parts -/

/-- No fault of an instruction is recorded as one of the two causes that are none (R121). -/
theorem cause_ne_none_and_loadError (r : Raise) : r.cause ≠ .none ∧ r.cause ≠ .loadError := by
  cases r <;> exact ⟨nofun, nofun⟩

theorem config_wf_iff (c : Config) :
    c.wf = true ↔
      12 ≤ c.memSize ∧ c.memSize ≤ 2147483647 ∧ c.idxPc ≠ Config.idxIo ∧ c.opcodes.injective = true := by
  simp [Config.wf, and_assoc]

/-- A record in memory has its successor's address in the i32 range, so the advance after it cannot overflow (log 14). -/
theorem fits_advance_of_inBounds {s : State} (hsize : s.cfg.memSize ≤ 2147483647)
    (hb : s.inBounds s.pc Config.recordBytes = true) : s.fits (s.pc.toInt + 12) = true := by
  obtain ⟨hlow, hhigh⟩ := (inBounds_iff s _ _).1 hb
  refine (fits_iff s _).2 (.inr ?_)
  simp only [intMin, intMax, Config.recordBytes] at *
  omega

theorem memoryLegal_of_eq {s t : State} (h : s.memoryLegal) (hmem : t.mem = s.mem) (hcfg : t.cfg = s.cfg) :
    t.memoryLegal := by
  rw [State.memoryLegal, hmem, hcfg]
  exact h

section Kept

variable {s t : State}

/-- A transition that keeps the core running, with no request, drops no written bit and keeps memory legal. -/
theorem inv_of_running (h : s.Inv) (hs : s.status = .running) (ht : t.status = .running) (hp : t.pending = none)
    (hmem : t.memoryLegal) (hcfg : t.cfg = s.cfg) (hw : ∀ r, s.written.get r = true → t.written.get r = true)
    (hf : t.fault = s.fault) : t.Inv := by
  obtain ⟨hwf, -, -, ⟨hpc, hzero⟩, hclear, -⟩ := h
  refine ⟨hcfg ▸ hwf, hmem, ⟨fun _ => hp, fun _ hn => absurd hp hn⟩, ⟨fun _ => ?_, fun hr _ _ r => ?_⟩,
    fun _ => hf.trans (hclear (by simp [hs])), fun hn => ?_, fun hn => ?_⟩
  · rw [hcfg]
    exact hw _ (hpc hs)
  · exact hw r (hzero (hcfg ▸ hr) (by simp [hs]) (by simp [hs]) r)
  · simp [ht] at hn
  · simp [ht] at hn

/-- A fault of a running core with no request pending. -/
theorem inv_takeFault (h : s.Inv) (hs : s.status = .running) (hp : s.pending = none) (op : Word) (r : Raise) :
    (s.takeFault op r).Inv := by
  obtain ⟨hwf, hmem, -, ⟨-, hzero⟩, -⟩ := h
  refine ⟨hwf, hmem, ⟨fun _ => hp, nofun⟩, ⟨nofun, fun hr _ _ => hzero hr (by simp [hs]) (by simp [hs])⟩, ?_,
    fun _ => ⟨rfl, cause_ne_none_and_loadError r⟩, nofun⟩
  simp

/-- Every instruction of a running core whose record lies in memory. -/
theorem inv_exec {i : Instr} (h : s.Inv) (hs : s.status = .running) (hp : s.pending = none)
    (hb : s.inBounds s.pc Config.recordBytes = true) (ht : exec i s = .next t) : t.Inv := by
  obtain ⟨-, hmem, -⟩ := id h
  cases exec_ends i s with
  | fault r _ eq =>
    rw [← next_inj eq ht]
    exact inv_takeFault h hs hp _ r
  | write d v _ _ _ eq =>
    rw [← next_inj eq ht]
    exact inv_of_running h hs (by simp [hs]) (by simp [hp]) (memoryLegal_of_eq hmem (by simp) (by simp)) (by simp)
      (fun r hr => by simp [hr]) (by simp)
  | transfer target _ eq =>
    rw [← next_inj eq ht]
    exact inv_of_running h hs (by simp [hs]) (by simp [hp]) (memoryLegal_of_eq hmem (by simp) (by simp)) (by simp)
      (fun r hr => by simp [hr]) (by simp)
  | store n addr v _ bounds _ eq =>
    rw [← next_inj eq ht]
    obtain ⟨hcanon, hinside⟩ := hmem
    have hrange : addr.toNat + (leBytes n v.toNat).length ≤ s.cfg.memSize := by
      rw [leBytes_length]
      exact (toNat_of_inBounds bounds).2
    exact inv_of_running h hs (by simp [hs]) (by simp [hp])
      ⟨writeBytes_wf hcanon _ _, writeBytes_bounded hinside hrange⟩ (by simp) (fun r hr => by simp [hr]) (by simp)
  | output e _ _ eq =>
    rw [← next_inj eq ht]
    exact inv_of_running h hs (by simp [hs]) (by simp [hp]) (memoryLegal_of_eq hmem (by simp) (by simp)) (by simp)
      (fun r hr => by simp [hr]) (by simp)
  | hold k _ eq =>
    rw [← next_inj eq ht]
    obtain ⟨hwf, hmem, -, hwritten, hfault⟩ := h
    exact ⟨hwf, hmem, ⟨by simp [hs], fun _ _ => hb⟩, hwritten, hfault⟩
  | halt _ eq =>
    rw [← next_inj eq ht]
    obtain ⟨hwf, hmem, -, ⟨-, hzero⟩, hclear, -⟩ := h
    exact ⟨hwf, hmem, ⟨fun _ => hp, nofun⟩, ⟨nofun, fun hr _ _ => hzero hr (by simp [hs]) (by simp [hs])⟩,
      fun _ => hclear (by simp [hs]), nofun, nofun⟩

theorem inv_instructionStep (h : s.Inv) (hs : s.status = .running) (hp : s.pending = none)
    (ht : instructionStep s = .next t) : t.Inv := by
  rcases instructionStep_cases s with ⟨-, eq⟩ | ⟨r, -, -, -, eq⟩ | ⟨r, i, -, hb, -, eq⟩
  · rw [← Host.Outcome.next.inj (eq.symm.trans ht)]
    exact inv_takeFault h hs hp _ _
  · rw [← Host.Outcome.next.inj (eq.symm.trans ht)]
    exact inv_takeFault h hs hp _ _
  · exact inv_exec h hs hp hb (eq.symm.trans ht)

/-- The completion of a hold: its record lies in memory and the answer leaves `pc` alone, so it does not fault. -/
theorem inv_completeInput (h : s.Inv) (hs : s.status = .running) {k : InputKind} (hp : s.pending = some k) (a : Answer)
    (rest : List Answer) : (s.completeInput k a rest).Inv := by
  obtain ⟨hwf, hmem, ⟨-, hrecord⟩, -⟩ := id h
  obtain ⟨-, hsize, hio, -⟩ := (config_wf_iff s.cfg).1 hwf
  have hfit : s.fits (s.pc.toInt + 12) = true := fits_advance_of_inBounds hsize (hrecord hs (by simp [hp]))
  have hpc : (s.receive k a).pc = s.pc := by
    cases a with
    | ok v => simp [State.receive, hio]
    | fail => rfl
  rcases completeInput_cases s k a rest with ⟨-, eq⟩ | ⟨hover, -⟩
  · rw [eq]
    cases a with
    | ok v => exact inv_of_running h hs hs rfl hmem rfl (fun r hr => by simp [State.receive, hr]) rfl
    | fail => exact inv_of_running h hs hs rfl hmem rfl (fun r hr => by simp [State.receive, hr]) rfl
  · rw [hpc, State.fits, receive_cfg] at hover
    exact absurd (hfit.symm.trans hover) (by decide)

/-- Every command, in every status: a load makes each part anew, and `RUN` starts a core whose record is clear. -/
theorem inv_perform (h : s.Inv) (c : Command) : (s.perform c).Inv := by
  obtain ⟨hwf, hmem, -, ⟨-, hzero⟩, hclear, -⟩ := id h
  cases c with
  | load image =>
    rcases Nat.lt_or_ge s.cfg.memSize image.length with hsize | hsize
    · rw [perform_load_of_oversize hsize]
      exact ⟨hwf, ⟨ofCells_wf _ _, ofCells_bounded _ _⟩, ⟨by simp, nofun⟩, ⟨nofun, fun _ _ hn => absurd rfl hn⟩,
        by simp, nofun, fun _ => ⟨rfl, rfl, rfl⟩⟩
    · rw [perform_load_of_fits hsize]
      exact ⟨hwf, ⟨ofImage_wf _, ofImage_bounded hsize⟩, ⟨fun _ => rfl, nofun⟩,
        ⟨nofun, fun hr _ _ r => (writtenAfterLoad_get _ r).trans (decide_eq_true hr)⟩, fun _ => rfl, nofun, nofun⟩
  | run start =>
    by_cases hs : s.status = .loaded
    · rw [perform_run_of_loaded start hs]
      have hset : s.cfg.regReset = .zero → ∀ r, s.written.get r = true :=
        fun hr => hzero hr (by simp [hs]) (by simp [hs])
      exact ⟨by simpa using hwf, memoryLegal_of_eq hmem (by simp) (by simp), ⟨by simp, by simp⟩,
        ⟨by simp, fun hr _ _ r => by simp [hset (by simpa using hr) r]⟩, fun _ => by simpa using hclear (.inl hs),
        by simp, by simp⟩
    · rw [perform_run_of_not_loaded start hs]
      exact h

end Kept

/-! ### The claims -/

/-- Settles O57: one lemma for each transition that a step can be; a command still to come is no part of the invariant. -/
theorem everyStepKeepsTheCoreInvariant : Obligations.EveryStepKeepsTheCoreInvariant := by
  intro s t h ht
  rcases step_cases s with ⟨hs, hp, eq⟩ | ⟨k, -, -, -, eq⟩ | ⟨k, a, rest, hs, hp, -, eq⟩ | ⟨-, -, eq⟩ |
    ⟨c, rest, -, -, eq⟩
  · exact inv_instructionStep h hs hp (eq.symm.trans ht)
  · cases eq.symm.trans ht
  · rw [← Host.Outcome.next.inj (eq.symm.trans ht)]
    exact inv_completeInput h hs hp a rest
  · cases eq.symm.trans ht
  · rw [← Host.Outcome.next.inj (eq.symm.trans ht)]
    exact inv_perform (s := { s with commands := rest }) h c

/-- Settles O56: every part of the invariant is decidable, and the reset state is one state. -/
theorem resetMeetsTheCoreInvariant : Obligations.ResetMeetsTheCoreInvariant := by
  unfold Obligations.ResetMeetsTheCoreInvariant
  decide

end Sys2Proof.Machine
end

section
/-! Subtract, Divide and Compare: their rules, and what the spec derives of them: the rounding of Divide, the antisymmetry of
Compare, and Add undone by Subtract (40_alu.md R76 to R84; 95_test_vectors.md S6). -/

namespace Sys2Proof.Machine

/-! ### Exact results in the i32 range -/

theorem fits_of_range {s : State} {v : Int} (hlow : intMin ≤ v) (hhigh : v ≤ intMax) : s.fits v = true :=
  (fits_iff s v).2 (.inr ⟨hlow, hhigh⟩)

theorem valueOf_range (s : State) (r : RegIdx) : intMin ≤ s.valueOf r ∧ s.valueOf r ≤ intMax := by
  have hlow := (s.x.get r).le_toInt
  have hhigh := (s.x.get r).toInt_lt
  simp only [State.valueOf, intMin, intMax]
  norm_num at hlow hhigh
  omega

/-- The advance of an instruction that leaves `pc` alone can overflow only upward. -/
theorem plainAdvanceFits_of_le {s : State} (h : s.valueOf s.cfg.idxPc + 12 ≤ intMax) : s.plainAdvanceFits = true := by
  obtain ⟨hlow, -⟩ := valueOf_range s s.cfg.idxPc
  exact fits_of_range (by omega) h

/-! ### The registers after a write to a register other than `pc` -/

theorem readable_afterWrite {s : State} {r : RegIdx} (d : RegIdx) (v : Word) (h : s.readable r = true) :
    (s.afterWrite d v).readable r = true := by
  simp only [State.readable, afterWrite_cfg, afterWrite_written, Bool.or_eq_true] at h ⊢
  exact h.imp_right .inr

theorem valueOf_pc_afterWrite {s : State} {d : RegIdx} (hd : d ≠ s.cfg.idxPc) (v : Word)
    (hroom : s.valueOf s.cfg.idxPc + 12 ≤ intMax) :
    (s.afterWrite d v).valueOf s.cfg.idxPc = s.valueOf s.cfg.idxPc + 12 := by
  obtain ⟨hlow, -⟩ := valueOf_range s s.cfg.idxPc
  have hpc : (s.afterWrite d v).valueOf s.cfg.idxPc = (wrap32 (s.valueOf s.cfg.idxPc + 12)).toInt :=
    congrArg BitVec.toInt (afterWrite_pc_of_ne hd v)
  rw [hpc, wrap32_toInt _ ⟨by omega, hroom⟩]

/-! ### The sign of a word -/

theorem signOf_eq (v : Word) : signOf v = wrap32 v.toInt.sign := by
  unfold signOf
  rcases lt_trichotomy v.toInt 0 with h | h | h
  · rw [if_pos h, Int.sign_eq_neg_one_of_neg h]
    rfl
  · rw [if_neg (by omega), if_pos h, h]
    rfl
  · rw [if_neg (by omega), if_neg (by omega), Int.sign_eq_one_of_pos h]
    rfl

theorem sign_cases (v : Int) : v.sign = -1 ∨ v.sign = 0 ∨ v.sign = 1 := by
  rcases lt_trichotomy v 0 with h | h | h
  · exact .inl (Int.sign_eq_neg_one_of_neg h)
  · exact .inr (.inl (by rw [h, Int.sign_zero]))
  · exact .inr (.inr (Int.sign_eq_one_of_pos h))

theorem toInt_wrap32_sign (v : Int) : (wrap32 v.sign).toInt = v.sign := by
  refine wrap32_toInt _ ?_
  rcases sign_cases v with h | h | h <;> rw [h] <;> decide

/-! ### A result that is computed from what `ovf` lets pass -/

theorem ovf_then_ok {s : State} {v : Int} (g : Word → Word) (h : s.fits v = true) :
    (s.ovf v >>= fun w => .ok (g w)) = .ok (g (wrap32 v)) := by
  rw [ovf_ok h, ok_bind]

theorem ovf_then_error {s : State} {v : Int} (g : Word → Word) (h : s.fits v = false) :
    (s.ovf v >>= fun w => .ok (g w)) = .error .arithmeticOverflow := by
  rw [ovf_error h, error_bind]

/-- What Compare computes is the sign of the difference, where the difference passes `ovf` (decision D21). -/
theorem compare_result {s : State} {v : Int} (h : s.fits v = true) :
    (s.ovf v >>= fun d => .ok (signOf d)) = .ok (wrap32 (wrap32 v).toInt.sign) := by
  rw [ovf_then_ok signOf h, signOf_eq]

/-! ### The quotient -/

theorem quotient_of_zero (d : RegIdx) {a b : Word} (hb : b.toInt = 0) : quotient d a b = .error (.divideByZero d) :=
  if_pos hb

theorem quotient_of_overflow (d : RegIdx) {a b : Word} (ha : a.toInt = intMin) (hb : b.toInt = -1) :
    quotient d a b = .error .arithmeticOverflow := by
  rw [quotient, if_neg (by omega), if_pos ⟨ha, hb⟩]

theorem quotient_of_ne_zero (d : RegIdx) {a b : Word} (hb : b.toInt ≠ 0) (hab : ¬ (a.toInt = intMin ∧ b.toInt = -1)) :
    quotient d a b = .ok (wrap32 (a.toInt.tdiv b.toInt)) := by
  rw [quotient, if_neg hb, if_neg hab]

/-- INT_MIN / -1 is the only truncated quotient of two i32 values outside the i32 range (40_alu.md R77). -/
theorem tdiv_range {a b : Int} (hlow : intMin ≤ a) (hhigh : a ≤ intMax) (hab : ¬ (a = intMin ∧ b = -1)) :
    intMin ≤ a.tdiv b ∧ a.tdiv b ≤ intMax := by
  have hsize : (a.tdiv b).natAbs ≤ a.natAbs := by
    rw [Int.natAbs_tdiv]
    exact Nat.div_le_self _ _
  by_cases ha : a = intMin
  · have hb : b ≠ -1 := fun h => hab ⟨ha, h⟩
    rcases lt_or_ge b 0 with hneg | hpos
    · have hhalf : (a.tdiv b).natAbs ≤ a.natAbs / 2 := by
        rw [Int.natAbs_tdiv]
        exact Nat.div_le_div_left (by omega) (by decide)
      simp only [intMin, intMax] at *
      omega
    · have hsign : 0 ≤ -a.tdiv b := by
        rw [← Int.neg_tdiv, ha]
        exact Int.tdiv_nonneg (by decide) hpos
      simp only [intMin, intMax] at *
      omega
  · simp only [intMin, intMax] at *
    omega

theorem natAbs_tdiv_mul_le (a b : Int) : (a.tdiv b * b).natAbs ≤ a.natAbs := by
  rw [Int.natAbs_mul, Int.natAbs_tdiv]
  exact Nat.div_mul_le_self _ _

theorem natAbs_sub_tdiv_mul_lt (a : Int) {b : Int} (hb : b ≠ 0) : (a - a.tdiv b * b).natAbs < b.natAbs := by
  rw [mul_comm, ← Int.tmod_def, Int.natAbs_tmod]
  exact Nat.mod_lt _ (Int.natAbs_pos.2 hb)

/-! ### The rules -/

/-- Settles O14: an operand fault, the fault of `ovf`, or the difference written. -/
theorem subtractFollowsItsRule : Obligations.SubtractFollowsItsRule := by
  refine ⟨by decide, fun s => ⟨fun ra rb => ?operands, fun ia ib ha hb hfit => ?overflow,
    fun ia ib ha hb hfit hadv => ?result⟩⟩
  case operands => exact operandFaults_of_binary rfl rfl rfl rfl
  case overflow => exact exec_of_binary_ovf_error rfl ha hb rfl hfit
  case result => exact exec_of_binary_ovf_ok rfl ha hb rfl hfit hadv

/-- Settles O16: an operand fault, the two faults of the quotient, or the quotient written. -/
theorem divideFollowsItsRule : Obligations.DivideFollowsItsRule := by
  refine ⟨by decide, fun s => ⟨fun ra rb => ?operands, fun ia ib ha hb hzero => ?zero,
    fun ia ib ha hb hmin hone => ?overflow, fun ia ib ha hb hzero hexact hadv => ?result⟩⟩
  case operands => exact operandFaults_of_binary rfl rfl rfl rfl
  case zero => exact exec_of_binary_error rfl ha hb (quotient_of_zero ib hzero)
  case overflow => exact exec_of_binary_error rfl ha hb (quotient_of_overflow ib hmin hone)
  case result => exact exec_of_binary_ok rfl ha hb (quotient_of_ne_zero ib hzero hexact) hadv

/-- Settles O17: the quotient written is an i32, so its value is the truncated quotient of the integers. -/
theorem divideRoundsTowardZero : Obligations.DivideRoundsTowardZero := by
  intro s ia ib ha hb hpc hzero hexact hadv
  obtain ⟨hlow, hhigh⟩ := valueOf_range s ia
  obtain ⟨-, -, -, hresult⟩ := divideFollowsItsRule.2 s
  have hexec := hresult ia ib ha hb hzero hexact ((advanceFits_of_ne hpc _).trans hadv)
  have hvalue : (wrap32 ((s.valueOf ia).tdiv (s.valueOf ib))).toInt = (s.valueOf ia).tdiv (s.valueOf ib) :=
    wrap32_toInt _ (tdiv_range hlow hhigh hexact)
  refine ⟨_, hexec, ?_⟩
  rw [(valueOf_afterWrite_of_ne hpc _).trans hvalue]
  exact ⟨natAbs_tdiv_mul_le _ _, natAbs_sub_tdiv_mul_lt _ hzero⟩

/-- Settles O18: an operand fault, the fault of `ovf`, or the sign of the difference written. -/
theorem compareFollowsItsRule : Obligations.CompareFollowsItsRule := by
  refine ⟨by decide, fun s => ⟨fun ra rb => ?operands, fun ia ib ha hb hfit => ?overflow,
    fun ia ib ha hb hfit hadv => ?result⟩⟩
  case operands => exact operandFaults_of_binary rfl rfl rfl rfl
  case overflow =>
    exact exec_of_binary_error (r := .arithmeticOverflow) rfl ha hb (ovf_then_error signOf hfit)
  case result => exact exec_of_binary_ok rfl ha hb (compare_result hfit) hadv

/-- Compare into a register other than `pc`, of a difference that is an i32, writes the sign of the difference. -/
theorem exec_compare_of_range {s : State} {ia ib : RegIdx} (ha : s.readable ia = true) (hb : s.readable ib = true)
    (hpc : ia ≠ s.cfg.idxPc) (hlow : intMin ≤ s.valueOf ia - s.valueOf ib) (hhigh : s.valueOf ia - s.valueOf ib ≤ intMax)
    (hadv : s.plainAdvanceFits = true) :
    ∃ t, exec (.compare (regWord ia) (regWord ib)) s = .next t ∧ t.valueOf ia = (s.valueOf ia - s.valueOf ib).sign := by
  obtain ⟨-, -, hresult⟩ := compareFollowsItsRule.2 s
  have hexec := hresult ia ib ha hb (fits_of_range hlow hhigh) ((advanceFits_of_ne hpc _).trans hadv)
  refine ⟨_, hexec, ?_⟩
  rw [valueOf_afterWrite_of_ne hpc, toInt_wrap32_sign, wrap32_toInt _ ⟨hlow, hhigh⟩]

/-- Settles O19: the two results are the signs of opposite differences. -/
theorem compareIsAntisymmetric : Obligations.CompareIsAntisymmetric := by
  intro s ia ib ha hb hpa hpb hlow hhigh hlow' hhigh' hadv
  obtain ⟨t, ht, hvt⟩ := exec_compare_of_range ha hb hpa hlow hhigh hadv
  obtain ⟨u, hu, hvu⟩ := exec_compare_of_range hb ha hpb hlow' hhigh' hadv
  refine ⟨t, u, ht, hu, ?_, hvt ▸ sign_cases _⟩
  rw [hvt, hvu, ← Int.sign_neg, neg_sub]

/-- Settles O20: the sum less the second register, which Add leaves alone, is the first. -/
theorem addThenSubtractRestores : Obligations.AddThenSubtractRestores := by
  intro s ia ib ha hb hne hpa hpb hlow hhigh hroom
  have hroomAdd : s.valueOf s.cfg.idxPc + 12 ≤ intMax := by simp only [intMax]; omega
  obtain ⟨-, -, hadd⟩ := addFollowsItsRule.2 s
  have ht := hadd ia ib ha hb (fits_of_range hlow hhigh)
    ((advanceFits_of_ne hpa _).trans (plainAdvanceFits_of_le hroomAdd))
  obtain ⟨t, hdef⟩ : ∃ t, s.afterWrite ia (wrap32 (s.valueOf ia + s.valueOf ib)) = t := ⟨_, rfl⟩
  have hcfg : t.cfg = s.cfg := by rw [← hdef, afterWrite_cfg]
  have hpc : t.valueOf s.cfg.idxPc = s.valueOf s.cfg.idxPc + 12 := by rw [← hdef, valueOf_pc_afterWrite hpa _ hroomAdd]
  have hia : t.valueOf ia = s.valueOf ia + s.valueOf ib := by
    rw [← hdef, valueOf_afterWrite_of_ne hpa, wrap32_toInt _ ⟨hlow, hhigh⟩]
  have hother : ∀ r, r ≠ ia → r ≠ s.cfg.idxPc → t.x.get r = s.x.get r :=
    fun r hr hr' => hdef ▸ (afterWrite_frame _ hr hr').1
  have hib : t.valueOf ib = s.valueOf ib := congrArg BitVec.toInt (hother ib hne.symm hpb)
  have hreadable : ∀ r, s.readable r = true → t.readable r = true := fun r => hdef ▸ readable_afterWrite ia _
  have hdiff : t.valueOf ia - t.valueOf ib = s.valueOf ia := by rw [hia, hib]; ring
  obtain ⟨hlowA, hhighA⟩ := valueOf_range s ia
  have hroomSub : t.valueOf t.cfg.idxPc + 12 ≤ intMax := by
    rw [hcfg, hpc]
    simp only [intMax]
    omega
  obtain ⟨-, -, hsub⟩ := subtractFollowsItsRule.2 t
  have hu := hsub ia ib (hreadable ia ha) (hreadable ib hb) (hdiff ▸ fits_of_range hlowA hhighA)
    ((advanceFits_of_ne (hcfg ▸ hpa) _).trans (plainAdvanceFits_of_le hroomSub))
  refine ⟨t, _, hdef ▸ ht, hu, fun r hr => ?_⟩
  rw [hdiff, State.valueOf, wrap32_of_toInt, afterWrite_get, hcfg, if_neg hr]
  by_cases h : r = ia
  · rw [if_pos h, h]
  · rw [if_neg h, hother r h hr]

end Sys2Proof.Machine
end

section
/-! What a store leaves for the load of the same bytes and for the next fetch (41_memory_access.md R90 to R94; 20_memory.md R48,
R54, R57). -/

namespace Sys2Proof.Machine

/-- The bytes written are the bytes read back. -/
theorem readBytes_writeBytes (m : Memory) (a : Nat) (bs : List Byte) :
    Memory.readBytes (Memory.writeBytes m a bs) a bs.length = bs := by
  refine List.ext_getElem (readBytes_length _ _ _) fun k hk hk' => ?_
  have hread := readBytes_getD (Memory.writeBytes m a bs) a bs.length k hk'
  rw [read_writeBytes, if_pos (by omega), Nat.add_sub_cancel_left] at hread
  simpa [hk, hk'] using hread

section AfterAStore

variable {i j : Instr} {s t : State} {n : Nat} {addr : Word} {ia ib : RegIdx}

/-- A store in bounds with room for the advance, by the parts of its next state that a later load or fetch depends on. -/
theorem exec_of_store_room (hi : exec i s = finish i.mnemonic s (storeFrom s n (regWord ia) addr))
    (ha : s.readable ia = true) (hlow : 0 ≤ addr.toInt) (hhigh : addr.toInt + n ≤ s.cfg.memSize)
    (hroom : s.pc.toInt + 12 ≤ intMax) :
    ∃ t, exec i s = .next t ∧ t.cfg = s.cfg ∧ t.pc.toInt = s.pc.toInt + 12 ∧
      t.mem = Memory.writeBytes s.mem addr.toNat (leBytes n (s.x.get ia).toNat) := by
  have hlowPc : intMin ≤ s.pc.toInt := (valueOf_range s s.cfg.idxPc).left
  have hadvance : (wrap32 (s.pc.toInt + 12)).toInt = s.pc.toInt + 12 := wrap32_toInt _ ⟨by omega, hroom⟩
  refine ⟨_, exec_of_store_inBounds hi ha hlow hhigh (plainAdvanceFits_of_le hroom), afterNone_cfg s, ?_, rfl⟩
  exact (congrArg BitVec.toInt (afterNone_pc s)).trans hadvance

/-- A load of the bytes that a store of the same width left gives the low part of the stored word. -/
theorem store_then_load (hi : exec i s = finish i.mnemonic s (storeFrom s n (regWord ia) addr))
    (hj : ∀ t, exec j t = finish j.mnemonic t (loadInto t n (regWord ib) addr)) (ha : s.readable ia = true)
    (hib : ib ≠ s.cfg.idxPc) (hlow : 0 ≤ addr.toInt) (hhigh : addr.toInt + n ≤ s.cfg.memSize)
    (hroom : s.pc.toInt + 24 ≤ intMax) :
    ∃ t u, exec i s = .next t ∧ exec j t = .next u ∧
      u.x.get ib = BitVec.ofNat 32 ((s.x.get ia).toNat % 256 ^ n) := by
  obtain ⟨t, ht, hcfg, hpc, hmem⟩ := exec_of_store_room hi ha hlow hhigh (by omega)
  have hread : Memory.readBytes t.mem addr.toNat n = leBytes n (s.x.get ia).toNat := by
    have h := readBytes_writeBytes s.mem addr.toNat (leBytes n (s.x.get ia).toNat)
    rwa [leBytes_length, ← hmem] at h
  have hroomLoad : t.pc.toInt + 12 ≤ intMax := by omega
  have hu := exec_of_load_inBounds (v := BitVec.ofNat 32 ((s.x.get ia).toNat % 256 ^ n)) (hj t) hlow (hcfg ▸ hhigh)
    (by rw [hread, leValue_leBytes]) ((advanceFits_of_ne (hcfg ▸ hib) _).trans (plainAdvanceFits_of_le hroomLoad))
  exact ⟨t, _, ht, hu, by rw [afterWrite_get, hcfg, if_neg hib, if_pos rfl]⟩

/-- The fetch after a store reads the memory that the store left, 12 bytes on. -/
theorem store_then_fetch (hi : exec i s = finish i.mnemonic s (storeFrom s n (regWord ia) addr))
    (ha : s.readable ia = true) (hlow : 0 ≤ addr.toInt) (hhigh : addr.toInt + n ≤ s.cfg.memSize)
    (hpcLow : 0 ≤ s.pc.toInt) (hpcHigh : s.pc.toInt + 24 ≤ s.cfg.memSize) (hsize : s.cfg.memSize ≤ 2147483647) :
    ∃ t bytes, exec i s = .next t ∧ t.fetch = .ok bytes ∧ bytes.length = 12 ∧
      ∀ k, k < 12 → bytes.getD k 0 =
        Memory.read (Memory.writeBytes s.mem addr.toNat (leBytes n (s.x.get ia).toNat)) (s.pc.toNat + 12 + k) := by
  obtain ⟨t, ht, hcfg, hpc, hmem⟩ := exec_of_store_room hi ha hlow hhigh (by simp only [intMax]; omega)
  have hhere : s.inBounds s.pc 12 = true := (inBounds_iff s _ _).2 ⟨hpcLow, by omega⟩
  have hnext : t.inBounds t.pc 12 = true := (inBounds_iff t _ _).2 ⟨by omega, by rw [hcfg]; omega⟩
  have haddr : t.pc.toNat = s.pc.toNat + 12 := by
    obtain ⟨heq, -⟩ := toNat_of_inBounds hhere
    obtain ⟨heq', -⟩ := toNat_of_inBounds hnext
    omega
  refine ⟨t, _, ht, if_pos hnext, readBytes_length _ _ _, fun k hk => ?_⟩
  rw [readBytes_getD _ _ _ _ hk, hmem, haddr]

end AfterAStore

/-! ### The claims -/

/-- Settles O30: one argument at one byte and at two. -/
theorem storeThenLoadGivesTheLowBits : Obligations.StoreThenLoadGivesTheLowBits := by
  refine fun s ia ib addr ha hib hlow hroom => ⟨fun hhigh => ?byte, fun hhigh => ?word⟩
  case byte => exact store_then_load (n := 1) rfl (fun _ => rfl) ha hib hlow hhigh hroom
  case word => exact store_then_load (n := 2) rfl (fun _ => rfl) ha hib hlow hhigh hroom

/-- Settles O31: one argument at one byte and at two. -/
theorem fetchSeesTheStoredBytes : Obligations.FetchSeesTheStoredBytes := by
  refine fun s ia addr ha hlow hpcLow hpcHigh hsize => ⟨fun hhigh => ?byte, fun hhigh => ?word⟩
  case byte =>
    simp only [← read_writeBytes_one, ← leBytes_one]
    exact store_then_fetch (n := 1) rfl ha hlow hhigh hpcLow hpcHigh hsize
  case word =>
    simp only [← read_writeBytes_two, ← leBytes_two]
    exact store_then_fetch (n := 2) rfl ha hlow hhigh hpcLow hpcHigh hsize

end Sys2Proof.Machine
end

section
/-! The program counter: the rules of Jump and JumpRelative, the bias of a transfer, the plain advance, and the instructions
that write `pc` as an ordinary register (42_control_transfer.md R97 to R100, R108; decisions D6, D23, D25). -/

namespace Sys2Proof.Machine

/-! ### JumpRelative -/

theorem operandFaults_jumpRelative (ra : Word) (s : State) : OperandFaults (.jumpRelative ra) s := by
  refine operandFaults_of_A rfl rfl rfl (fun hv => ?_) (fun ia r hia hr => ?_)
  · rw [reg_invalid hv, error_bind]
  · subst hia
    obtain ⟨rfl, hr⟩ : ia = r ∧ s.readable r = false := by simpa [readWords] using hr
    rw [reg_regWord, ok_bind, readReg_error hr, error_bind]

theorem exec_jumpRelative_of_readable {s : State} {ia : RegIdx} (ha : s.readable ia = true) :
    exec (.jumpRelative (regWord ia)) s = finish .jumpRelative s (transferTo s (s.x.get ia)) := by
  show finish .jumpRelative s _ = _
  rw [reg_regWord, ok_bind, readReg_ok ha, ok_bind]

/-! ### The bias -/

theorem wrap32_bias (target : Word) : wrap32 (target.toInt - 12) = target - 12 := by
  rw [wrap32, Int.sub_eq_add_neg, BitVec.ofInt_add, BitVec.ofInt_toInt, BitVec.sub_eq_add_neg]
  rfl

/-! ### A write of `pc` as an ordinary register -/

section PcWrites

variable {i : Instr} {s : State} {v : Word}

/-- A meaning that writes `v` to `pc` and continues: the advance goes on from `v`. -/
theorem pcWriteRule_of_write
    (h : exec i s = finish i.mnemonic s (.ok (.continues (s.writeReg s.cfg.idxPc v)))) : PcWriteRule i s v := by
  refine ⟨fun hfit => ?fits, fun hfit => ?overflow⟩
  case fits => rw [h, finish_write ((advanceFits_pc s v).trans hfit), afterWrite_pc]
  case overflow =>
    rw [h, finish_write_error ((advanceFits_pc s v).trans hfit), faultedBy_eq]
    rfl

theorem pcWriteRule_of_binary {ib : RegIdx} {f : RegIdx → Word → Word → Except Raise Word}
    (h : exec i s = finish i.mnemonic s (binary s (regWord s.cfg.idxPc) (regWord ib) f))
    (hp : s.readable s.cfg.idxPc = true) (hb : s.readable ib = true)
    (hf : f ib (s.x.get s.cfg.idxPc) (s.x.get ib) = .ok v) : PcWriteRule i s v := by
  refine pcWriteRule_of_write ?_
  rw [h, binary_ok hp hb, hf]
  rfl

theorem pcWriteRule_of_load {n : Nat} {addr : Word}
    (h : exec i s = finish i.mnemonic s (loadInto s n (regWord s.cfg.idxPc) addr)) (hlow : 0 ≤ addr.toInt)
    (hhigh : addr.toInt + n ≤ s.cfg.memSize) :
    PcWriteRule i s (BitVec.ofNat 32 (leValue (Memory.readBytes s.mem addr.toNat n))) := by
  have hb := (inBounds_iff s addr n).2 ⟨hlow, hhigh⟩
  exact pcWriteRule_of_write (by rw [h]; simp [loadInto, State.loadData, hb])

/-- A value of at most 16 bits is too small for the advance past it to overflow. -/
theorem exec_of_small_pcWrite {n : Nat} (hn : n < 65536) (h : PcWriteRule i s (BitVec.ofNat 32 n)) :
    exec i s = .next (s.goTo (BitVec.ofNat 32 (n + 12))) := by
  have hvalue : (BitVec.ofNat 32 n).toInt = n := by
    rw [BitVec.toInt_eq_toNat_cond, BitVec.toNat_ofNat]
    omega
  obtain ⟨hfits, -⟩ := h
  rw [hfits (fits_of_range (by simp only [intMin]; omega) (by simp only [intMax]; omega)), hvalue]
  rfl

/-- A truth value written to `pc`. -/
theorem exec_of_truth_pcWrite {p : Prop} [Decidable p] (h : PcWriteRule i s (if p then 1 else 0)) :
    exec i s = .next (s.goTo (if p then 13 else 12)) := by
  by_cases hp : p
  · rw [if_pos hp] at h ⊢
    exact exec_of_small_pcWrite (n := 1) (by decide) h
  · rw [if_neg hp] at h ⊢
    exact exec_of_small_pcWrite (n := 0) (by decide) h

/-- A sign written to `pc`. -/
theorem exec_of_sign_pcWrite {d : Int} (h : PcWriteRule i s (wrap32 d.sign)) :
    exec i s = .next (s.goTo (wrap32 (d.sign + 12))) := by
  obtain ⟨hfits, -⟩ := h
  rw [toInt_wrap32_sign] at hfits
  refine hfits (fits_of_range ?_ ?_) <;> rcases sign_cases d with hd | hd | hd <;> rw [hd] <;> decide

end PcWrites

/-! ### The claims -/

/-- Settles O32: the transfer arithmetic fits, and the two biases cancel, or it overflows. -/
theorem jumpFollowsItsRule : Obligations.JumpFollowsItsRule :=
  fun _ _ => ⟨fun hover => finish_transfer_error hover, fun hfit => finish_transfer hfit⟩

/-- Settles O33: an operand fault, or the transfer to the register's value. -/
theorem jumpRelativeFollowsItsRule : Obligations.JumpRelativeFollowsItsRule := by
  refine fun s => ⟨fun ra => operandFaults_jumpRelative ra s, fun ia ha hover => ?overflow, fun ia ha hfit => ?transfer⟩
  case overflow =>
    rw [exec_jumpRelative_of_readable ha, finish_transfer_error hover, faultedBy_eq]
    rfl
  case transfer => rw [exec_jumpRelative_of_readable ha, finish_transfer hfit]

/-- Settles O35: the advance from the target less the bias gives the target back, whether the difference wrapped or not. -/
theorem transferStoresTheTargetLessTheBias : Obligations.TransferStoresTheTargetLessTheBias := by
  intro s target hfit
  rcases transferTo_cases s target with ⟨hfits, hbody⟩ | ⟨hover, -⟩
  · have hpc : (s.writeReg s.cfg.idxPc (wrap32 (target.toInt - 12))).pc = wrap32 (target.toInt - 12) := by simp
    rcases advance_cases (s.writeReg s.cfg.idxPc (wrap32 (target.toInt - 12))) with ⟨-, hadv⟩ | ⟨hover, -⟩
    · refine ⟨_, _, hbody, hpc.trans (wrap32_bias target), hadv, ?_⟩
      rw [hpc, advance_of_bias]
      simp
    · rw [hpc] at hover
      exact absurd ((fits_of_bias hfits).symm.trans hover) (by decide)
  · exact absurd (hfit.symm.trans hover) (by decide)

/-- Settles O37: of the ways an instruction can end, those that a transfer, a write of `pc`, a fault, End and a request do not
take are the plain advance. -/
theorem ordinaryInstructionsAdvanceByTwelve : Obligations.OrdinaryInstructionsAdvanceByTwelve := by
  intro i s t hjump hdest hs hp ht hrun hnone
  cases exec_ends i s with
  | fault r _ eq => simp [← next_inj eq ht] at hrun
  | write d v dest _ fits eq =>
    have hd : d ≠ s.cfg.idxPc := fun h => hdest (h ▸ dest)
    rw [← next_inj eq ht]
    exact ⟨afterWrite_pc_of_ne hd v, (advanceFits_of_ne hd v).symm.trans fits⟩
  | transfer target jump eq => exact absurd (hjump.symm.trans jump) (by decide)
  | store n addr v _ _ fits eq =>
    rw [← next_inj eq ht]
    exact ⟨afterNone_pc s, fits⟩
  | output e _ fits eq =>
    rw [← next_inj eq ht]
    exact ⟨afterNone_pc s, fits⟩
  | hold k _ eq => simp [← next_inj eq ht] at hnone
  | halt _ eq => simp [← next_inj eq ht] at hrun

/-- Settles O38: each of these meanings writes a word to `pc` and continues; of the last five the word is too small for the
advance to overflow. -/
theorem writingPcContinuesTwelvePastTheValue : Obligations.WritingPcContinuesTwelvePastTheValue := by
  rintro s p rfl
  refine ⟨fun imm => ?loadAddress, fun ib hb => ?move, fun imm hp hfit => ?addImmediate, fun ib hp hb => ⟨fun hfit => ?add,
    fun hfit => ?subtract, fun hfit => ?multiply, fun hzero hexact => ?divide, fun hfit => ?compare, ?logicalAnd,
    ?logicalOr⟩, fun addr hlow hhigh => ?loadByte, fun addr hlow hhigh => ?loadWord⟩
  case loadAddress => exact pcWriteRule_of_write (exec_loadAddress_regWord _ imm s)
  case move => exact pcWriteRule_of_write (exec_move_of_readable _ hb)
  case addImmediate =>
    refine pcWriteRule_of_write ?_
    rw [exec_addImmediate_of_readable imm hp, ovf_ok hfit]
    rfl
  case add => exact pcWriteRule_of_binary rfl hp hb (ovf_ok hfit)
  case subtract => exact pcWriteRule_of_binary rfl hp hb (ovf_ok hfit)
  case multiply => exact pcWriteRule_of_binary rfl hp hb (ovf_ok hfit)
  case divide => exact pcWriteRule_of_binary rfl hp hb (quotient_of_ne_zero ib hzero hexact)
  case compare => exact exec_of_sign_pcWrite (pcWriteRule_of_binary rfl hp hb (compare_result hfit))
  case logicalAnd =>
    exact exec_of_truth_pcWrite (pcWriteRule_of_binary rfl hp hb (congrArg Except.ok (ofTruth_and_eq s _ ib)))
  case logicalOr =>
    exact exec_of_truth_pcWrite (pcWriteRule_of_binary rfl hp hb (congrArg Except.ok (ofTruth_or_eq s _ ib)))
  case loadByte =>
    have hrule := pcWriteRule_of_load (i := .loadByte (regWord s.cfg.idxPc) addr) (n := 1) rfl hlow hhigh
    rw [leValue_readBytes_one] at hrule
    exact exec_of_small_pcWrite (by omega) hrule
  case loadWord =>
    have hrule := pcWriteRule_of_load (i := .loadWord (regWord s.cfg.idxPc) addr) (n := 2) rfl hlow hhigh
    rw [leValue_readBytes_two] at hrule
    exact exec_of_small_pcWrite (by omega) hrule

end Sys2Proof.Machine
end

section
/-! Console input and the conversions of `io`: what an instruction whose meaning is `convertIo` ends in, the completion of an
input hold, and the rules of the two conversions, of the two inputs and of OutputInteger (43_io.md R109 to R115). -/

namespace Sys2Proof.Machine

/-! ### Every instruction whose meaning is `convertIo` -/

section Conversions

variable {i : Instr} {s : State} {f : Word → Except Raise Word}

theorem convertIo_unreadable (hio : s.readable Config.idxIo = false) :
    convertIo s f = .error (.uninitialisedRegister Config.idxIo) := by
  rcases convertIo_cases s f with ⟨-, hbody⟩ | ⟨hread, -⟩
  · exact hbody
  · simp [hio] at hread

theorem convertIo_readable (hio : s.readable Config.idxIo = true) :
    convertIo s f = (f (s.x.get Config.idxIo)).map fun v => Ending.continues (s.writeReg Config.idxIo v) := by
  rcases convertIo_cases s f with ⟨hunread, -⟩ | ⟨-, hbody⟩
  · simp [hio] at hunread
  · exact hbody

theorem operandFaults_of_convert (h : exec i s = finish i.mnemonic s (convertIo s f)) (hA : i.regA = none)
    (hB : i.regB = none) (hreads : readWords i = [regWord Config.idxIo]) : OperandFaults i s :=
  operandFaults_of_io h hA hB hreads convertIo_unreadable

theorem exec_of_convert_error (h : exec i s = finish i.mnemonic s (convertIo s f)) {r : Raise}
    (hio : s.readable Config.idxIo = true) (hf : f (s.x.get Config.idxIo) = .error r) :
    exec i s = .next (s.faultedBy (s.cfg.opcodes.opcode i.mnemonic) r.cause r.detail) :=
  exec_of_body_error h (by rw [convertIo_readable hio, hf]; rfl)

theorem exec_of_convert_ok (h : exec i s = finish i.mnemonic s (convertIo s f)) {v : Word}
    (hio : s.readable Config.idxIo = true) (hf : f (s.x.get Config.idxIo) = .ok v)
    (hadv : s.advanceFits Config.idxIo v = true) : exec i s = .next (s.afterWrite Config.idxIo v) := by
  rw [h, convertIo_readable hio, hf]
  exact finish_write hadv

end Conversions

/-! ### The tests of the conversions (decision D22) -/

theorem digitOrMinusOne_eq {v : Int} (hlow : intMin ≤ v) (hhigh : v ≤ intMax) :
    digitOrMinusOne (wrap32 (v - 48)) = if 48 ≤ v ∧ v ≤ 57 then wrap32 (v - 48) else wrap32 (-1) := by
  have hdigit : (0 ≤ (wrap32 (v - 48)).toInt ∧ (wrap32 (v - 48)).toInt ≤ 9) ↔ (48 ≤ v ∧ v ≤ 57) := by
    simp only [wrap32, BitVec.toInt_ofInt, Int.bmod, intMin, intMax] at *
    omega
  simp only [digitOrMinusOne, hdigit]
  rfl

theorem digitCharOrZeroChar_eq {v : Int} (hlow : intMin ≤ v) (hhigh : v ≤ intMax) :
    digitCharOrZeroChar (wrap32 (v + 48)) = if 0 ≤ v ∧ v ≤ 9 then wrap32 (v + 48) else wrap32 48 := by
  have hdigit : (48 ≤ (wrap32 (v + 48)).toInt ∧ (wrap32 (v + 48)).toInt ≤ 57) ↔ (0 ≤ v ∧ v ≤ 9) := by
    simp only [wrap32, BitVec.toInt_ofInt, Int.bmod, intMin, intMax] at *
    omega
  simp only [digitCharOrZeroChar, hdigit]

/-! ### The completion of an input hold -/

section Completion

variable {s : State} {k : InputKind} {rest : List Answer}

/-- An answer `ok(v)` completes the hold with `v` in `io`, as a write that continues. -/
theorem completeInput_ok {v : Word} (hadv : s.advanceFits Config.idxIo v = true) :
    s.completeInput k (.ok v) rest = { s.afterWrite Config.idxIo v with pending := none, answers := rest } := by
  rcases completeInput_cases s k (.ok v) rest with ⟨-, hdone⟩ | ⟨hover, -⟩
  · rw [hdone, ← writeReg_advance_eq_afterWrite]
    rfl
  · have hpc : (s.writeReg Config.idxIo v).pc = s.pcBeforeAdvance Config.idxIo v := by
      simp [State.pcBeforeAdvance, State.pc, eq_comm]
    rw [State.receive, hpc] at hover
    exact absurd (hadv.symm.trans hover) (by decide)

/-- An answer `fail` completes the hold with the diagnostic, as an instruction that writes nothing. -/
theorem completeInput_fail (hadv : s.plainAdvanceFits = true) :
    s.completeInput k .fail rest =
      { s.afterNone with out := s.out ++ [.diag k], pending := none, answers := rest } := by
  rcases completeInput_cases s k .fail rest with ⟨-, hdone⟩ | ⟨hover, -⟩
  · rw [hdone, writeReg_pc_eq_goTo]
    rfl
  · exact absurd (hadv.symm.trans hover) (by decide)

end Completion

/-! ### The claims -/

/-- Settles O39: an unreadable `io`, the fault of `ovf`, or the digit's value or the sentinel written. -/
theorem convertASCIIToIntegerFollowsItsRule : Obligations.ConvertASCIIToIntegerFollowsItsRule := by
  rintro s _ w rfl hw
  obtain ⟨hlow, hhigh⟩ := valueOf_range s Config.idxIo
  rw [← digitOrMinusOne_eq hlow hhigh] at hw
  refine ⟨?operands, fun hio hover => ?overflow, fun hio hfit hadv => ?result⟩
  case operands => exact operandFaults_of_convert rfl rfl rfl rfl
  case overflow => exact exec_of_convert_error (r := .arithmeticOverflow) rfl hio (ovf_then_error _ hover)
  case result => exact exec_of_convert_ok rfl hio (hw ▸ ovf_then_ok _ hfit) hadv

/-- Settles O40: an unreadable `io`, the fault of `ovf`, or the digit's character or the sentinel written. -/
theorem convertIntegerToASCIIFollowsItsRule : Obligations.ConvertIntegerToASCIIFollowsItsRule := by
  rintro s _ w rfl hw
  obtain ⟨hlow, hhigh⟩ := valueOf_range s Config.idxIo
  rw [← digitCharOrZeroChar_eq hlow hhigh] at hw
  refine ⟨?operands, fun hio hover => ?overflow, fun hio hfit hadv => ?result⟩
  case operands => exact operandFaults_of_convert rfl rfl rfl rfl
  case overflow => exact exec_of_convert_error (r := .arithmeticOverflow) rfl hio (ovf_then_error _ hover)
  case result => exact exec_of_convert_ok rfl hio (hw ▸ ovf_then_ok _ hfit) hadv

/-- A digit character, with room for the advance: its value is written. -/
theorem exec_convertASCIIToInteger_of_digit {s : State} (hio : s.readable Config.idxIo = true)
    (hpc : Config.idxIo ≠ s.cfg.idxPc) (hlow : 48 ≤ s.valueOf Config.idxIo) (hhigh : s.valueOf Config.idxIo ≤ 57)
    (hroom : s.valueOf s.cfg.idxPc + 12 ≤ intMax) :
    exec .convertASCIIToInteger s = .next (s.afterWrite Config.idxIo (wrap32 (s.valueOf Config.idxIo - 48))) := by
  obtain ⟨-, -, hrule⟩ := convertASCIIToIntegerFollowsItsRule s _ _ rfl rfl
  rw [if_pos ⟨hlow, hhigh⟩] at hrule
  exact hrule hio (fits_of_range (by simp only [intMin]; omega) (by simp only [intMax]; omega))
    ((advanceFits_of_ne hpc _).trans (plainAdvanceFits_of_le hroom))

/-- A digit, with room for the advance: its character is written. -/
theorem exec_convertIntegerToASCII_of_digit {s : State} (hio : s.readable Config.idxIo = true)
    (hpc : Config.idxIo ≠ s.cfg.idxPc) (hlow : 0 ≤ s.valueOf Config.idxIo) (hhigh : s.valueOf Config.idxIo ≤ 9)
    (hroom : s.valueOf s.cfg.idxPc + 12 ≤ intMax) :
    exec .convertIntegerToASCII s = .next (s.afterWrite Config.idxIo (wrap32 (s.valueOf Config.idxIo + 48))) := by
  obtain ⟨-, -, hrule⟩ := convertIntegerToASCIIFollowsItsRule s _ _ rfl rfl
  rw [if_pos ⟨hlow, hhigh⟩] at hrule
  exact hrule hio (fits_of_range (by simp only [intMin]; omega) (by simp only [intMax]; omega))
    ((advanceFits_of_ne hpc _).trans (plainAdvanceFits_of_le hroom))

/-- Settles O41: the digit's value stands in `io` between the two steps, and is the digit that the second step converts. -/
theorem digitCharactersSurviveBothConversions : Obligations.DigitCharactersSurviveBothConversions := by
  intro s hio hne hlow hhigh hroom
  have hroomFirst : s.valueOf s.cfg.idxPc + 12 ≤ intMax := by simp only [intMax]; omega
  have ht := exec_convertASCIIToInteger_of_digit hio hne.symm hlow hhigh hroomFirst
  obtain ⟨t, hdef⟩ : ∃ t, s.afterWrite Config.idxIo (wrap32 (s.valueOf Config.idxIo - 48)) = t := ⟨_, rfl⟩
  have hcfg : t.cfg = s.cfg := by rw [← hdef, afterWrite_cfg]
  have hdigit : t.valueOf Config.idxIo = s.valueOf Config.idxIo - 48 := by
    rw [← hdef, valueOf_afterWrite_of_ne hne.symm]
    exact wrap32_toInt _ ⟨by simp only [intMin]; omega, by simp only [intMax]; omega⟩
  have hroomSecond : t.valueOf t.cfg.idxPc + 12 ≤ intMax := by
    rw [hcfg, ← hdef, valueOf_pc_afterWrite hne.symm _ hroomFirst]
    simp only [intMax]
    omega
  have hu := exec_convertIntegerToASCII_of_digit (hdef ▸ readable_afterWrite _ _ hio) (hcfg ▸ hne.symm)
    (by omega) (by omega) hroomSecond
  refine ⟨t, _, hdef ▸ ht, hdigit, hu, ?_⟩
  rw [hdigit, sub_add_cancel, State.valueOf, wrap32_of_toInt, afterWrite_get, hcfg, if_neg hne.symm, if_pos rfl]

/-- Settles O42: the request step, then the completion by each of the two answers. -/
theorem inputInstructionsHoldAndComplete : Obligations.InputInstructionsHoldAndComplete := by
  intro i kind s hi hs
  have hexec : exec i s = .next { s with pending := some kind } := by
    rcases hi with ⟨rfl, rfl⟩ | ⟨rfl, rfl⟩ <;> rfl
  refine ⟨_, hexec, rfl, fun hnone => ?unanswered, fun v rest hok hadv => ?ok, fun rest hfail hadv => ?fail⟩
  case unanswered => exact step_of_unanswered hs rfl hnone
  case ok =>
    exact (step_of_answered (s := { s with pending := some kind }) hs rfl hok).trans
      (congrArg _ (completeInput_ok (s := { s with pending := some kind }) hadv))
  case fail =>
    exact (step_of_answered (s := { s with pending := some kind }) hs rfl hfail).trans
      (congrArg _ (completeInput_fail (s := { s with pending := some kind }) hadv))

/-- Settles O44: an unreadable `io` is the operand fault; a readable one is emitted whole, and the advance leaves the event
in place. -/
theorem outputIntegerFollowsItsRule : Obligations.OutputIntegerFollowsItsRule := by
  refine fun s => ⟨?operands, fun hio hadv => ?event⟩
  case operands => exact operandFaults_of_output rfl rfl rfl rfl
  case event => exact exec_of_output_readable rfl hio hadv

end Sys2Proof.Machine
end
